-- ==== Sys2Proof/Word.lean ====
section
/-! DEFINITION. The plain types of the block: bytes, host words, the 4-bit codes, the three encoded formats that are
decoded (spec/30_encoding.md R90), and why a decoder turns a word away. -/

namespace Sys2Proof

/-- A byte (00_scope.md R7). -/
abbrev Byte := BitVec 8

/-- A register as the host sees it: 32 bits (10_state.md R27). -/
abbrev Word := BitVec 32

/-- Format `N4`: one 4-bit ADPCM code (30_encoding.md R91). -/
abbrev Code := BitVec 4

/-- An encoded thing together with the place it stands in, which says how it is read (30_encoding.md R90):
a nibble of the payload (`N4`), a value written to CMD (`CMDW`), or STATUS bits 3:0 (`PHASE`).
A code and a phase number can be the same four bits; the place tells them apart. -/
inductive Encoded where
  | code (c : Code)
  | command (w : Word)
  | phase (p : BitVec 4)
deriving DecidableEq, Repr

/-- Why a decoder has no instruction for an encoded thing. No code is ever turned away (30_encoding.md R99). -/
inductive Reject where
  /-- A CMD value other than 1 and 2 (30_encoding.md R103). -/
  | reservedCommand (w : Word)
  /-- A PHASE value in which the block has no operation: 0, 8, 9, and 10 to 15, which never occur (10_state.md R33). -/
  | noOperation (p : BitVec 4)
deriving DecidableEq, Repr

end Sys2Proof
end

