-- ==== Sys2Proof/Config.lean ====
section
/-! DEFINITION. What is fixed when one block is built (spec/00_scope.md R5), the choices a host makes once per run (R6),
and the free values: constants without a body, of which nothing can be proved. -/

namespace Sys2Proof

/-- Which CMP layout IMEM holds, CFG bit 0 (10_state.md R31). -/
inductive Variant where
  | headerless
  | header
deriving DecidableEq, Repr

/-- Which step-size table is in use, CFG bit 1 (10_state.md R31). -/
inductive Profile where
  | short
  | full
deriving DecidableEq, Repr

/-- Which nibble of a payload byte plays first, CFG bit 2 (42_cmp_source.md R185). -/
inductive NibOrder where
  | lowFirst
  | highFirst
deriving DecidableEq, Repr

/-- The OPEN parameters of one block (00_scope.md R5). Every claim holds for every value of them: the machine carries
them in its state and no step writes them. Nothing is assumed of a table but its length (40_step_table.md R120). -/
structure Params where
  /-- `T16`, the short step-size table. -/
  t16 : Vector Nat 16
  /-- `T89`, the full step-size table. -/
  t89 : Vector Nat 89
  /-- `SIG_EXPECTED`, the four bytes a header must begin with. -/
  sigExpected : Vector Byte 4
  /-- `CHECK_PAYSIZE`: is the header's raw payload size compared with the bytes present (42_cmp_source.md R183)? -/
  checkPaysize : Bool
  /-- `ICAP`, the bytes of IMEM. -/
  icap : Nat
  /-- `OCAP`, the bytes of OMEM. -/
  ocap : Nat
deriving DecidableEq, Repr

/-- `WCAP = 2 * ICAP`, the samples of WMEM (00_scope.md R5). -/
def Params.wcap (p : Params) : Nat := 2 * p.icap

/-- `L = len(T)` (40_step_table.md R120). -/
def Profile.length : Profile → Nat
  | .short => 16
  | .full => 89

namespace Config

/-- `DEF_RATE` (00_scope.md R5). -/
def defRate : Nat := 22500

/-- `DEF_PREC` (00_scope.md R5). -/
def defPrec : Nat := 12

/-- `SUPPORTED_PREC`: the precisions a header may name (00_scope.md R5). -/
def supportedPrec : List Nat := [16]

/-- `CH`, the channel count (00_scope.md R5). -/
def channels : Nat := 1

/-- `B_MAX`, the largest legal bytes-per-sample (00_scope.md R5). -/
def bMax : Nat := 4

/-! The parameters the spec gives no value for, in the one state after reset (log 2). -/

/-- A table of sixteen step sizes of which nothing is known. -/
opaque t16Open : Vector Nat 16

/-- A table of eighty-nine step sizes of which nothing is known. -/
opaque t89Open : Vector Nat 89

/-- A signature of which nothing is known. -/
opaque sigOpen : Vector Byte 4

/-- The parameters of the block that `State.reset` describes. DESIGN CHOICE (log 2): the capacities are those
95_test_vectors.md section 2 uses, CHECK_PAYSIZE has its default; tables and signature are open. -/
def builtParams : Params :=
  { t16 := t16Open, t89 := t89Open, sigExpected := sigOpen, checkPaysize := false, icap := 65536, ocap := 1048576 }

/-! What an element of a memory holds before anything has written it (93_implementation_defined.md U1, U3): some value,
the same at every read until it is written, another after every reset (log 7). Arguments: how many resets have
happened, and the index. -/

opaque imemUnwritten : Nat → Nat → Byte
opaque wmemUnwritten : Nat → Nat → BitVec 16
opaque omemUnwritten : Nat → Nat → Byte

/-! What the host gets from a read the spec gives no value for (93_implementation_defined.md U3, U4): a value nothing is
known of, fresh at every read (log 8). The argument is the number of such reads so far. -/

opaque anyWord : Nat → Word
opaque anySample : Nat → BitVec 16
opaque anyByte : Nat → Byte

end Config

end Sys2Proof
end

