-- ==== Sys2Proof/Syntax.lean ====
section
/-! DEFINITION. The instruction set: one constructor for each row of spec/opcode_table.json. No instruction has an operand
field (30_encoding.md R94). -/

namespace Sys2Proof

/-- The sixteen codes of the stream (format `N4`, 30_encoding.md R92), the two host commands (format `CMDW`, R97) and the
seven internal operations (format `PHASE`, R98). -/
inductive Instr where
  | p0 | p1 | p2 | p3 | p4 | p5 | p6 | p7
  | n0 | n1 | n2 | n3 | n4 | n5 | n6 | n7
  | start | clear
  | cfgchk | sigchk | hdrparse | decode | wavhdr | wavdata | backfill
deriving DecidableEq, Repr

end Sys2Proof
end

