-- ==== Sys2Proof/WellFormed.lean ====
section
/-! DEFINITION. What is well formed: an instruction (always: it has no field), an encoded thing, and the parameters of a
block (spec/00_scope.md R5). -/

namespace Sys2Proof

/-- An instruction has no operand, so there is nothing to get wrong (30_encoding.md R94). -/
def Instr.wf : Instr → Bool
  | .p0 | .p1 | .p2 | .p3 | .p4 | .p5 | .p6 | .p7 => true
  | .n0 | .n1 | .n2 | .n3 | .n4 | .n5 | .n6 | .n7 => true
  | .start | .clear => true
  | .cfgchk | .sigchk | .hdrparse | .decode | .wavhdr | .wavdata | .backfill => true

/-- An encoded thing that stands for an instruction: every code (30_encoding.md R99), the CMD values 1 and 2 (R97, R103),
the PHASE values 1 to 7 (R98). -/
def Encoded.wf : Encoded → Bool
  | .code _ => true
  | .command w => decide (w = 1#32) || decide (w = 2#32)
  | .phase p => decide (1 ≤ p.toNat) && decide (p.toNat ≤ 7)

/-- The bounds R5 puts on the capacities: `ICAP < 2^31` and `44 <= OCAP < 2^32`. The lengths of the tables and of the
signature are in their types. -/
def Params.wf (p : Params) : Bool :=
  decide (p.icap < 2 ^ 31) && decide (44 ≤ p.ocap) && decide (p.ocap < 2 ^ 32)

end Sys2Proof
end

