-- ==== Sys2Proof/Decode.lean ====
section
/-! DEFINITION. The decoders, total and rejecting by name, and after them the encoder (spec/30_encoding.md). -/

namespace Sys2Proof

/-! ## Fields of a code (30_encoding.md R91) -/

/-- Bit `k` of a code as the number 0 or 1. -/
def Code.bit (c : Code) (k : Nat) : Nat := if c.getLsbD k then 1 else 0

/-- `s = c[3]`. -/
def Code.sign (c : Code) : Bool := c.getLsbD 3

/-- `m = c[2:0]`, the magnitude selector. -/
def Code.selector (c : Code) : Nat := c.toNat % 8

/-! ## Decoding -/

/-- Format `N4`: every four bits are an instruction (R92, R99). The bits are read in the order `s b2 b1 b0` of the table. -/
def decodeCode (c : Code) : Instr :=
  match c.getLsbD 3, c.getLsbD 2, c.getLsbD 1, c.getLsbD 0 with
  | false, false, false, false => .p0
  | false, false, false, true  => .p1
  | false, false, true,  false => .p2
  | false, false, true,  true  => .p3
  | false, true,  false, false => .p4
  | false, true,  false, true  => .p5
  | false, true,  true,  false => .p6
  | false, true,  true,  true  => .p7
  | true,  false, false, false => .n0
  | true,  false, false, true  => .n1
  | true,  false, true,  false => .n2
  | true,  false, true,  true  => .n3
  | true,  true,  false, false => .n4
  | true,  true,  false, true  => .n5
  | true,  true,  true,  false => .n6
  | true,  true,  true,  true  => .n7

/-- Format `CMDW`: all 32 bits are compared (R97, R103). -/
def decodeCommand (w : Word) : Except Reject Instr :=
  if w = 0x00000001#32 then .ok .start
  else if w = 0x00000002#32 then .ok .clear
  else .error (.reservedCommand w)

/-- Format `PHASE`: the operation the block performs next (R98). -/
def decodePhase (p : BitVec 4) : Except Reject Instr :=
  match p.toNat with
  | 1 => .ok .cfgchk
  | 2 => .ok .sigchk
  | 3 => .ok .hdrparse
  | 4 => .ok .decode
  | 5 => .ok .wavhdr
  | 6 => .ok .wavdata
  | 7 => .ok .backfill
  | _ => .error (.noOperation p)

/-- The decoder, over an encoded thing and its place. -/
def decode : Encoded → Except Reject Instr
  | .code c => .ok (decodeCode c)
  | .command w => decodeCommand w
  | .phase p => decodePhase p

/-! ## Format `B8`: two codes in a payload byte (R93, 42_cmp_source.md R185) -/

/-- The low nibble `b[3:0]`. -/
def lowNibble (b : Byte) : Code := b.extractLsb' 0 4

/-- The high nibble `b[7:4]`. -/
def highNibble (b : Byte) : Code := b.extractLsb' 4 4

/-- `NIB(b, j)`: the code of byte `b` that plays `j`-th, `j = 0` first. Only the parity of `j` counts, so a code index can
be given whole (the rule reads it as `CP mod 2`). -/
def nib (ord : NibOrder) (b : Byte) (j : Nat) : Code :=
  match ord with
  | .lowFirst => if j % 2 = 0 then lowNibble b else highNibble b
  | .highFirst => if j % 2 = 0 then highNibble b else lowNibble b

/-- The codes of a payload in playback order: two for each byte, and every byte is legal (R99). -/
def unpackCodes (ord : NibOrder) : List Byte → List Code
  | [] => []
  | b :: bs => nib ord b 0 :: nib ord b 1 :: unpackCodes ord bs

/-! ## Encoding -/

/-- The word of an instruction, with its place: the tables of R92, R97 and R98. -/
def encode : Instr → Encoded
  | .p0 => .code 0x0#4
  | .p1 => .code 0x1#4
  | .p2 => .code 0x2#4
  | .p3 => .code 0x3#4
  | .p4 => .code 0x4#4
  | .p5 => .code 0x5#4
  | .p6 => .code 0x6#4
  | .p7 => .code 0x7#4
  | .n0 => .code 0x8#4
  | .n1 => .code 0x9#4
  | .n2 => .code 0xA#4
  | .n3 => .code 0xB#4
  | .n4 => .code 0xC#4
  | .n5 => .code 0xD#4
  | .n6 => .code 0xE#4
  | .n7 => .code 0xF#4
  | .start => .command 0x00000001#32
  | .clear => .command 0x00000002#32
  | .cfgchk => .phase 1#4
  | .sigchk => .phase 2#4
  | .hdrparse => .phase 3#4
  | .decode => .phase 4#4
  | .wavhdr => .phase 5#4
  | .wavdata => .phase 6#4
  | .backfill => .phase 7#4

/-- `PAIR a, b`: the byte that makes code `a` play before code `b` (30_encoding.md R104). -/
def pairByte (ord : NibOrder) (a b : Code) : Byte :=
  match ord with
  | .lowFirst => b ++ a
  | .highFirst => a ++ b

/-- The payload bytes of a code sequence; a last code without a partner is paired with code 0 (a stream always has an even
number of codes, 42_cmp_source.md R184). -/
def packCodes (ord : NibOrder) : List Code → List Byte
  | [] => []
  | [a] => [pairByte ord a 0#4]
  | a :: b :: cs => pairByte ord a b :: packCodes ord cs

/-! ## The opcode table's numbering -/

/-- The instruction the decoder reads from an instruction whose bits are `w`. A row of at most a byte is read as the code
that plays first, low nibble first, of that payload byte; a row of 32 bits is a value written to CMD. The `PHASE`
rows have the same four bits as codes 1 to 7 and stand in no stream and no register a host can write, so a bare
number is never one of them (log 6). -/
def decodeTableWord (nbits w : Nat) : Option Instr :=
  if nbits ≤ 8 then some (decodeCode (nib .lowFirst (BitVec.ofNat 8 w) 0))
  else if nbits = 32 then (decode (.command (BitVec.ofNat 32 w))).toOption
  else none

end Sys2Proof
end

