-- ==== Sys2Proof/Machine/State.lean ====
section
/-! DEFINITION. The state of the block (spec/10_state.md), its memories as sparse lists, the reasons a step can stop, and the
state after reset (R44, 70_reset_and_hazards.md R310). -/

namespace Sys2Proof.Machine

/-- A memory: the elements that hold a value, by index. What an unlisted element reads as is `State.imemAt` and its
like in Machine/Ops.lean. Canonical form: `Memory.wf`. -/
abbrev Memory (α : Type) := List (Nat × α)

/-- The canonical form: indices strictly rise, so equal memories are equal lists. An unlisted element holds no value, so
no entry can repeat what an unlisted one reads as. -/
abbrev Memory.wf {α : Type} (m : Memory α) : Prop := m.Pairwise (fun a b => a.1 < b.1)

/-- `PHASE`, STATUS bits 3:0 (R33): which rule the block's next step applies. Values 10 to 15 never occur. -/
inductive Phase where
  | idle | cfgchk | sigchk | hdrparse | decode | wavhdr | wavdata | backfill | done | error
deriving DecidableEq, Repr

/-- `ERR`, STATUS bits 11:8 (R34). Values 9 to 15 never occur. -/
inductive Err where
  | none | fmtSignature | fmtPrecision | fmtTruncHeader | fmtTruncPayload | fmtRange | cfgBps | cfgIlen | ioFull
deriving DecidableEq, Repr

/-- The fields of `CFG` (R31). The reserved bits hold nothing (R29): they read 0 in `Cfg.toWord` and are dropped in
`Cfg.ofWord` (Machine/Ops.lean). -/
structure Cfg where
  variant : Variant
  profile : Profile
  nibord : NibOrder
  bps : BitVec 4
deriving DecidableEq, Repr

/-- What the outside world can do to the block: the host's five accesses (92_eei_decisions.md D1) and the reset event
(70_reset_and_hazards.md R310). START and CLEAR are writes to register 0. -/
inductive Outside where
  | writeReg (n : Nat) (v : Word)
  | readReg (n : Nat)
  | writeImem (i : Nat) (b : Byte)
  | readWmem (i : Nat)
  | readOmem (i : Nat)
  | reset
deriving DecidableEq, Repr

/-- Whose move the next step is (00_scope.md R10: the block and the outside never step together). -/
inductive Turn where
  | block
  | outside (a : Outside)
deriving DecidableEq, Repr

/-- What the host's latest read returned. The model's own: the block never reads it. -/
inductive Readback where
  | nothing
  | word (w : Word)
  | sample (v : Int)
  | byte (b : Byte)
deriving DecidableEq, Repr

/-- Everything the spec gives the block, the parameters of this block, and the model's own book-keeping.
Counters and samples are the spec's unbounded numbers (92_eei_decisions.md D3); that each fits the register's width
is part of the invariant `BlockInv` (Safety.lean), and the host reads them as 32 bits (log 13). -/
structure State where
  /-- The parameters of this block (00_scope.md R5): no step writes them. -/
  par : Params
  /-- `STATUS.PHASE` (R33). -/
  phase : Phase
  /-- `STATUS.ERR` (R34). -/
  err : Err
  /-- `ERRINFO`, register 4 (R35). -/
  errinfo : Nat
  /-- `CFG`, register 1 (R31). -/
  cfg : Cfg
  /-- `ILEN`, register 2 (R30). -/
  ilen : Nat
  /-- `NSAMP`, register 5 (R23). -/
  nsamp : Nat
  /-- `OLEN`, register 6 (R40). -/
  olen : Nat
  /-- `RATE`, register 7 (R36). -/
  rate : Nat
  /-- `PREC`, register 8 (R36). -/
  prec : Nat
  /-- `PAYSIZE`, register 9 (R37). -/
  paysize : Nat
  /-- `POFF`, register 10 (R38). -/
  poff : Nat
  /-- `IDX`, register 11, the step cursor (R21). -/
  idx : Nat
  /-- `ACC`, register 12, the accumulator (R22). -/
  acc : Int
  /-- `CP`, register 13, the code pointer: the program counter (R24). -/
  cp : Nat
  /-- `SP`, register 14, the sample pointer (R25). -/
  sp : Nat
  /-- `IMEM`: the CMP file (20_memory.md R61). -/
  imem : Memory Byte
  /-- `WMEM`: the decoded waveform (R62). -/
  wmem : Memory Int
  /-- `OMEM`: the WAV file (R63). -/
  omem : Memory Byte
  /-- The model's own: the turns still to come; when it is empty every turn is the block's (log 3). -/
  agenda : List Turn
  /-- The model's own: what the host's latest read returned (log 16). -/
  readback : Readback
  /-- The model's own: how many resets have happened (log 7). -/
  epoch : Nat
  /-- The model's own: how many free values host reads have drawn (log 8). -/
  draws : Nat
deriving DecidableEq, Repr

/-- Why a step stops with a fault. All are safe: the model stops where the spec defines no result, and no run from reset
reaches any but `noSuchElement` (`Obligations.BlockNeverStops`). -/
inductive Fault where
  /-- A code is executed with `IDX` outside the step table: `T[IDX]` is not defined (40_step_table.md R122, R125).
  Raised by the sixteen codes. Safe. -/
  | cursorOutOfTable
  /-- A code or a sample is processed with `PREC` not in 1..16, a precision no rule gives a meaning ("While `PREC = 0` no
  rule reads it", 10_state.md R36). Raised by the sixteen codes and WAVDATA. Safe. -/
  | precisionOutOfRange
  /-- A sample is normalized with `BPS = 0`: `NORM` needs `B >= 1` (43_pcm_normalizer.md R200). Raised by WAVDATA. Safe. -/
  | widthOutOfRange
  /-- `MemRead(IMEM, a, n)` with `a + n > ILEN`, or beyond the memory (00_scope.md R9, 20_memory.md R61). Raised by
  SIGCHK, HDRPARSE and DECODE. Safe. -/
  | imemOutOfRange
  /-- `WMEM` written at or beyond `WCAP`, or read at or beyond `NSAMP` (20_memory.md R60, R62). Raised by the sixteen codes
  and WAVDATA. Safe. -/
  | wmemOutOfRange
  /-- `MemWrite(OMEM, a, bytes)` with `a + len(bytes) > OCAP` (00_scope.md R9). Raised by WAVDATA and BACKFILL. Safe. -/
  | omemOutOfRange
  /-- `LE(n, v)` of a number outside `0 <= v < 2^(8n)` (00_scope.md R8). Raised by WAVHDR and BACKFILL. Safe. -/
  | fieldOutOfRange
  /-- The host names an element at or beyond a memory's capacity (20_memory.md R60). Raised by a host access, never by an
  instruction. Safe. -/
  | noSuchElement
deriving DecidableEq, Repr

/-- Why a step is refused. -/
inductive Refusal where
  /-- The instruction has no meaning yet; raised by an arm of `exec`. Safe. No arm does. -/
  | notModelled (mnemonic : String)
  /-- The host writes IMEM while the block is busy: "a model gives such a host action no move"
  (70_reset_and_hazards.md R316, 93_implementation_defined.md U2). Raised by a host access, never by an instruction. Safe. -/
  | imemWriteWhileBusy
deriving DecidableEq, Repr

/-- What a step answers. -/
abbrev Out := Host.Outcome State Fault Refusal

/-- CFG after reset (R44): all bits 0. -/
def Cfg.reset : Cfg := { variant := .headerless, profile := .short, nibord := .lowFirst, bps := 0#4 }

/-- The state after reset of a block with parameters `p` (R44, R310): every register 0, nothing known of the memories. -/
def State.resetOf (p : Params) : State :=
  { par := p, phase := .idle, err := .none, errinfo := 0, cfg := Cfg.reset, ilen := 0, nsamp := 0, olen := 0, rate := 0,
    prec := 0, paysize := 0, poff := 0, idx := 0, acc := 0, cp := 0, sp := 0, imem := [], wmem := [], omem := [],
    agenda := [], readback := .nothing, epoch := 0, draws := 0 }

/-- The machine right after reset. Its parameters are those of log 2. -/
def State.reset : State := State.resetOf Config.builtParams

end Sys2Proof.Machine
end

