-- ==== Sys2Proof/Machine/Flags.lean ====
section
/-! DEFINITION. The block has no condition flag (spec/10_state.md R26): a clamp or a saturation leaves no trace. Its only
status is STATUS (R32): PHASE, ERR and the computed bit BUSY. -/

namespace Sys2Proof.Machine

/-- The value of a phase in STATUS bits 3:0 (R33). -/
def Phase.number : Phase → BitVec 4
  | .idle => 0#4
  | .cfgchk => 1#4
  | .sigchk => 2#4
  | .hdrparse => 3#4
  | .decode => 4#4
  | .wavhdr => 5#4
  | .wavdata => 6#4
  | .backfill => 7#4
  | .done => 8#4
  | .error => 9#4

/-- The value of an error in STATUS bits 11:8 (R34, 60_exceptions.md R271). -/
def Err.number : Err → BitVec 4
  | .none => 0#4
  | .fmtSignature => 1#4
  | .fmtPrecision => 2#4
  | .fmtTruncHeader => 3#4
  | .fmtTruncPayload => 4#4
  | .fmtRange => 5#4
  | .cfgBps => 6#4
  | .cfgIlen => 7#4
  | .ioFull => 8#4

/-- "busy" means `1 <= PHASE <= 7` (R27, R32). -/
def State.busy (s : State) : Bool :=
  decide (1 ≤ s.phase.number.toNat) && decide (s.phase.number.toNat ≤ 7)

/-- STATUS as the host reads it (R32): PHASE in 3:0, ERR in 11:8, BUSY in 12, the rest 0. -/
def State.statusWord (s : State) : Word :=
  BitVec.ofNat 32 (s.phase.number.toNat + 2 ^ 8 * s.err.number.toNat + 2 ^ 12 * (if s.busy then 1 else 0))

end Sys2Proof.Machine
end

