-- ==== Sys2Proof/Machine/Ops.lean ====
section
/-! DEFINITION. The named operations over memories and registers: reading and writing the sparse memories, what an unwritten
element reads as, the error entry (spec/60_exceptions.md R273) and beside it the way out of an error (R286), and the
register map as the host reads and writes it (10_state.md R27). -/

namespace Sys2Proof.Machine

/-! ## Sparse memories -/

/-- The value an index holds, if anything has written it. -/
def Memory.look {α : Type} : Memory α → Nat → Option α
  | [], _ => none
  | (j, w) :: r, i => if i = j then some w else Memory.look r i

/-- Write one element, keeping the indices rising. -/
def Memory.put {α : Type} : Memory α → Nat → α → Memory α
  | [], i, v => [(i, v)]
  | (j, w) :: r, i, v =>
    if i < j then (i, v) :: (j, w) :: r
    else if i = j then (i, v) :: r
    else (j, w) :: Memory.put r i v

/-- `MemWrite`: consecutive elements from index `a`, first element lowest (00_scope.md R9). -/
def Memory.putAll {α : Type} : Memory α → Nat → List α → Memory α
  | m, _, [] => m
  | m, a, v :: vs => Memory.putAll (Memory.put m a v) (a + 1) vs

/-! ## What an element holds (20_memory.md R60; log 7) -/

/-- `IMEM[i]`. An element nothing has written since reset is some byte, the same at every read
(93_implementation_defined.md U1). -/
def State.imemAt (s : State) (i : Nat) : Byte := (Memory.look s.imem i).getD (Config.imemUnwritten s.epoch i)

/-- `WMEM[i]` (U3). -/
def State.wmemAt (s : State) (i : Nat) : Int := (Memory.look s.wmem i).getD (Config.wmemUnwritten s.epoch i).toInt

/-- `OMEM[i]` (U3). -/
def State.omemAt (s : State) (i : Nat) : Byte := (Memory.look s.omem i).getD (Config.omemUnwritten s.epoch i)

/-- The bytes of `MemRead(IMEM, a, n)`, lowest index first (00_scope.md R9). -/
def State.imemBytes (s : State) (a : Nat) : Nat → List Byte
  | 0 => []
  | n + 1 => s.imemAt a :: s.imemBytes (a + 1) n

/-- The bytes `OMEM[a .. a+n-1]`. The block never reads them (20_memory.md R63); claims do. -/
def State.omemBytes (s : State) (a : Nat) : Nat → List Byte
  | 0 => []
  | n + 1 => s.omemAt a :: s.omemBytes (a + 1) n

/-- Where `MemRead(IMEM, a, n)` is defined: `a + n <= ILEN` (00_scope.md R9), inside the memory (20_memory.md R60). -/
def State.imemReadable (s : State) (a n : Nat) : Bool :=
  decide (a + n ≤ s.ilen) && decide (a + n ≤ s.par.icap)

/-! ## Run-time configuration in use -/

/-- `CFG.BPS` as a number. -/
def State.bps (s : State) : Nat := s.cfg.bps.toNat

/-! ## Error entry and the way out -/

/-- `raise E(info)` (60_exceptions.md R273): four writes and nothing else, whatever the raising step. -/
def raiseError (e : Err) (info : Nat) (s : State) : State :=
  { s with err := e, errinfo := info, olen := 0, phase := .error }

/-- What START and CLEAR do to the registers the block writes (45_host_commands.md R250, R251), which is also the only way
out of ERROR but for reset (60_exceptions.md R286). The phase to go to is the caller's. -/
def clearRun (p : Phase) (s : State) : State :=
  { s with idx := 0, acc := 0, cp := 0, sp := 0, nsamp := 0, olen := 0, rate := 0, prec := 0, paysize := 0, poff := 0,
           err := .none, errinfo := 0, phase := p }

/-- The reset event (70_reset_and_hazards.md R310): every register as in R44, the memories unspecified anew. The parameters
are not state and stay; the turns still to come, the host's latest read and the counts of free values are the model's own
(log 17). -/
def resetEvent (s : State) : State :=
  { State.resetOf s.par with agenda := s.agenda, readback := s.readback, epoch := s.epoch + 1, draws := s.draws }

/-! ## The register map (10_state.md R27 to R38) -/

/-- A bit of a word as a choice of two. -/
def pick {α : Type} (w : Word) (k : Nat) (zero one : α) : α := if w.getLsbD k then one else zero

/-- CFG from a written word: reserved bits 3 and 31:8 are dropped (R29, R31). -/
def Cfg.ofWord (w : Word) : Cfg :=
  { variant := pick w 0 .headerless .header
    profile := pick w 1 .short .full
    nibord := pick w 2 .lowFirst .highFirst
    bps := w.extractLsb' 4 4 }

/-- CFG as the host reads it: reserved bits 0. -/
def Cfg.toWord (c : Cfg) : Word :=
  BitVec.ofNat 32
    ((match c.variant with | .headerless => 0 | .header => 1)
      + 2 * (match c.profile with | .short => 0 | .full => 1)
      + 4 * (match c.nibord with | .lowFirst => 0 | .highFirst => 1)
      + 16 * c.bps.toNat)

/-- The value of register `n` (R27): CMD and the reserved registers read 0 (R28, R29), `ACC` is sign-extended (R22). -/
def State.regValue (s : State) (n : Nat) : Word :=
  match n with
  | 0 => 0#32
  | 1 => s.cfg.toWord
  | 2 => BitVec.ofNat 32 s.ilen
  | 3 => s.statusWord
  | 4 => BitVec.ofNat 32 s.errinfo
  | 5 => BitVec.ofNat 32 s.nsamp
  | 6 => BitVec.ofNat 32 s.olen
  | 7 => BitVec.ofNat 32 s.rate
  | 8 => BitVec.ofNat 32 s.prec
  | 9 => BitVec.ofNat 32 s.paysize
  | 10 => BitVec.ofNat 32 s.poff
  | 11 => BitVec.ofNat 32 s.idx
  | 12 => BitVec.ofInt 32 s.acc
  | 13 => BitVec.ofNat 32 s.cp
  | 14 => BitVec.ofNat 32 s.sp
  | _ => 0#32

/-- A host write to a register other than CMD (R27, R252): CFG and ILEN when the block is not busy; every other write,
and every write while busy, is ignored (70_reset_and_hazards.md R316). -/
def writeReg (n : Nat) (v : Word) (s : State) : State :=
  if s.busy then s
  else
    match n with
    | 1 => { s with cfg := Cfg.ofWord v }
    | 2 => { s with ilen := v.toNat }
    | _ => s

end Sys2Proof.Machine
end

