-- ==== Sys2Proof/Machine/Operands.lean ====
section
/-! DEFINITION. The implicit operands of the instructions and the pure functions they use: clamp, the step table and its cursor
(spec/40_step_table.md), the difference of a code (41_adpcm_decoder.md R141), the code at the code pointer
(42_cmp_source.md R184, R185), little-endian fields (00_scope.md R8), and `NORM` (43_pcm_normalizer.md R200). -/

namespace Sys2Proof.Machine

/-! ## Numbers (00_scope.md R8, R9) -/

/-- `clamp(x, lo, hi)`. -/
def clampInt (x lo hi : Int) : Int := if x < lo then lo else if hi < x then hi else x

/-- `LE(n, v)`: `n` bytes, least significant first. Defined for `v < 2^(8n)`; the callers check it. -/
def le : Nat → Nat → List Byte
  | 0, _ => []
  | n + 1, v => BitVec.ofNat 8 v :: le n (v / 256)

/-- `LEval(bytes)`. -/
def leVal : List Byte → Nat
  | [] => 0
  | b :: bs => b.toNat + 256 * leVal bs

/-- `tc(n, v)`: the two's-complement image in `n` bytes, `v mod 2^(8n)`. -/
def tc (n : Nat) (v : Int) : Nat := (v % 2 ^ (8 * n)).toNat

/-- `tdiv(n, d)`: the quotient truncated toward zero. -/
def tdiv (n : Int) (d : Nat) : Int := if 0 ≤ n then n / d else -(-n / d)

/-! ## Range of a sample (41_adpcm_decoder.md R140) -/

/-- `MIN = -2^(P-1)`. -/
def sampleMin (p : Nat) : Int := -(2 ^ (p - 1))

/-- `MAX = 2^(P-1) - 1`. -/
def sampleMax (p : Nat) : Int := 2 ^ (p - 1) - 1

/-! ## Step table and cursor (40_step_table.md) -/

/-- `ADJ[m]` (R121). -/
def adjust : Nat → Int
  | 4 => 2
  | 5 => 4
  | 6 => 6
  | 7 => 8
  | _ => -1

/-- `T[i]` of a profile; the callers check `i < L` (R120, R125). -/
def stepAt (p : Params) (pr : Profile) (i : Nat) : Nat :=
  match pr with
  | .short => p.t16.toList.getD i 0
  | .full => p.t89.toList.getD i 0

/-- `current_step() = T[IDX]` (R122). -/
def State.currentStep (s : State) : Nat := stepAt s.par s.cfg.profile s.idx

/-- `clamp(IDX + a, 0, L - 1)` (R123). -/
def moveCursor (len idx : Nat) (a : Int) : Nat := (clampInt (idx + a) 0 (len - 1)).toNat

/-- `advance(c)` (R123): keyed by the low three bits, the sign bit does not count. -/
def advance (len idx : Nat) (c : Code) : Nat := moveCursor len idx (adjust (Code.selector c))

/-- `d = t*b2 + (t >> 1)*b1 + (t >> 2)*b0 + (t >> 3)` (41_adpcm_decoder.md R141): four separate shifts
(30_encoding.md R94). -/
def magnitude (t : Nat) (c : Code) : Nat :=
  t * Code.bit c 2 + (t >>> 1) * Code.bit c 1 + (t >>> 2) * Code.bit c 0 + (t >>> 3)

/-- `diff` of R141: `d`, negated if the sign bit is set. -/
def difference (t : Nat) (c : Code) : Int := if Code.sign c then -(magnitude t c : Int) else (magnitude t c : Int)

/-! ## The code at the code pointer (42_cmp_source.md R184, R185) -/

/-- `n = 2 * (ILEN - POFF)`, the number of codes in the stream. -/
def State.codeCount (s : State) : Int := 2 * ((s.ilen : Int) - (s.poff : Int))

/-- Where the byte of code `CP` lies. -/
def State.codeByteIndex (s : State) : Nat := s.poff + s.cp / 2

/-- `c = NIB(IMEM[POFF + CP div 2], CP mod 2)`. -/
def State.currentCode (s : State) : Code := nib s.cfg.nibord (s.imemAt s.codeByteIndex) (s.cp % 2)

/-! ## Normalizer -/

/-- `NORM(s, I, B)` (43_pcm_normalizer.md R200), for `I >= 1` and `B >= 1`. -/
def pcmNorm (x : Int) (i b : Nat) : Int :=
  let u : Int := 2 ^ i - 1
  let h : Int := 2 ^ (i - 1)
  let w : Int := 2 ^ (8 * b) - 1
  let uc : Int := clampInt (x + h) 0 u
  tdiv (w * (2 * uc - u)) (2 * (2 ^ i - 1))

/-- Format `WAVS` (30_encoding.md R96): the bytes of one output sample. -/
def sampleBytes (x : Int) (i b : Nat) : List Byte := le b (tc b (pcmNorm x i b))

/-! ## Formats -/

/-- The bytes of "RIFF", "WAVE", "fmt " and "data" (20_memory.md R67; ASCII, 93_implementation_defined.md G2). -/
def tagRiff : List Byte := [0x52#8, 0x49#8, 0x46#8, 0x46#8]
def tagWave : List Byte := [0x57#8, 0x41#8, 0x56#8, 0x45#8]
def tagFmt : List Byte := [0x66#8, 0x6D#8, 0x74#8, 0x20#8]
def tagData : List Byte := [0x64#8, 0x61#8, 0x74#8, 0x61#8]

/-- Format `WAVH` with the two size fields as given (44_wav_sink.md R222): 44 bytes. -/
def wavHeader (riffSize dataSize rate b : Nat) : List Byte :=
  tagRiff ++ le 4 riffSize ++ tagWave ++ tagFmt ++ le 4 16 ++ le 2 1 ++ le 2 Config.channels ++ le 4 rate
    ++ le 4 (rate * (Config.channels * b)) ++ le 2 (Config.channels * b) ++ le 2 (8 * b) ++ tagData ++ le 4 dataSize

/-- Format `CMPH`: `HDR size, rate, prec` (30_encoding.md R104), the 14 bytes of a header. -/
def cmpHeader (sig : Vector Byte 4) (size rate prec : Nat) : List Byte :=
  sig.toList ++ le 4 size ++ le 4 rate ++ le 2 prec

end Sys2Proof.Machine
end

