-- ==== Sys2Proof/Machine/Codes.lean ====
section
/-! DEFINITION. The sixteen codes (spec/41_adpcm_decoder.md R150 to R165), each over one shared operation (R141). -/

namespace Sys2Proof.Machine

/-- What every code does once its difference and its cursor move are known (R141): clamp the sum, emit it, keep it, move
the cursor, count. All reads precede all writes. It stops only where `T[IDX]`, the range of `PREC` or `WMEM[CP]` is
not defined (log 12). -/
def emitSample (diff adj : Int) (s : State) : Out :=
  if ¬ s.idx < s.cfg.profile.length then .fault .cursorOutOfTable
  else if ¬ (1 ≤ s.prec ∧ s.prec ≤ 16) then .fault .precisionOutOfRange
  else if ¬ s.cp < s.par.wcap then .fault .wmemOutOfRange
  else
    let v := clampInt (s.acc + diff) (sampleMin s.prec) (sampleMax s.prec)
    .next { s with
      wmem := Memory.put s.wmem s.cp v
      acc := v
      idx := moveCursor s.cfg.profile.length s.idx adj
      cp := s.cp + 1
      nsamp := s.nsamp + 1 }

/-- `P0`, R150: `d = (t>>3)`. -/
def execP0 (s : State) : Out :=
  let t := s.currentStep
  emitSample (t >>> 3 : Nat) (-1) s

/-- `P1`, R151: `d = (t>>2) + (t>>3)`. -/
def execP1 (s : State) : Out :=
  let t := s.currentStep
  emitSample ((t >>> 2) + (t >>> 3) : Nat) (-1) s

/-- `P2`, R152: `d = (t>>1) + (t>>3)`. -/
def execP2 (s : State) : Out :=
  let t := s.currentStep
  emitSample ((t >>> 1) + (t >>> 3) : Nat) (-1) s

/-- `P3`, R153: `d = (t>>1) + (t>>2) + (t>>3)`. -/
def execP3 (s : State) : Out :=
  let t := s.currentStep
  emitSample ((t >>> 1) + (t >>> 2) + (t >>> 3) : Nat) (-1) s

/-- `P4`, R154: `d = t + (t>>3)`. -/
def execP4 (s : State) : Out :=
  let t := s.currentStep
  emitSample (t + (t >>> 3) : Nat) 2 s

/-- `P5`, R155: `d = t + (t>>2) + (t>>3)`. -/
def execP5 (s : State) : Out :=
  let t := s.currentStep
  emitSample (t + (t >>> 2) + (t >>> 3) : Nat) 4 s

/-- `P6`, R156: `d = t + (t>>1) + (t>>3)`. -/
def execP6 (s : State) : Out :=
  let t := s.currentStep
  emitSample (t + (t >>> 1) + (t >>> 3) : Nat) 6 s

/-- `P7`, R157: `d = t + (t>>1) + (t>>2) + (t>>3)`. -/
def execP7 (s : State) : Out :=
  let t := s.currentStep
  emitSample (t + (t >>> 1) + (t >>> 2) + (t >>> 3) : Nat) 8 s

/-- `N0`, R158: `d` as `P0`, subtracted. -/
def execN0 (s : State) : Out :=
  let t := s.currentStep
  emitSample (-(t >>> 3 : Nat)) (-1) s

/-- `N1`, R159. -/
def execN1 (s : State) : Out :=
  let t := s.currentStep
  emitSample (-((t >>> 2) + (t >>> 3) : Nat)) (-1) s

/-- `N2`, R160. -/
def execN2 (s : State) : Out :=
  let t := s.currentStep
  emitSample (-((t >>> 1) + (t >>> 3) : Nat)) (-1) s

/-- `N3`, R161. -/
def execN3 (s : State) : Out :=
  let t := s.currentStep
  emitSample (-((t >>> 1) + (t >>> 2) + (t >>> 3) : Nat)) (-1) s

/-- `N4`, R162. -/
def execN4 (s : State) : Out :=
  let t := s.currentStep
  emitSample (-(t + (t >>> 3) : Nat)) 2 s

/-- `N5`, R163. -/
def execN5 (s : State) : Out :=
  let t := s.currentStep
  emitSample (-(t + (t >>> 2) + (t >>> 3) : Nat)) 4 s

/-- `N6`, R164. -/
def execN6 (s : State) : Out :=
  let t := s.currentStep
  emitSample (-(t + (t >>> 1) + (t >>> 3) : Nat)) 6 s

/-- `N7`, R165. -/
def execN7 (s : State) : Out :=
  let t := s.currentStep
  emitSample (-(t + (t >>> 1) + (t >>> 2) + (t >>> 3) : Nat)) 8 s

/-- `EXEC(c)` (R141): the rule of the code that was fetched. The bits select as in the table of 30_encoding.md R92. -/
def execCode (c : Code) (s : State) : Out :=
  match c.getLsbD 3, c.getLsbD 2, c.getLsbD 1, c.getLsbD 0 with
  | false, false, false, false => execP0 s
  | false, false, false, true  => execP1 s
  | false, false, true,  false => execP2 s
  | false, false, true,  true  => execP3 s
  | false, true,  false, false => execP4 s
  | false, true,  false, true  => execP5 s
  | false, true,  true,  false => execP6 s
  | false, true,  true,  true  => execP7 s
  | true,  false, false, false => execN0 s
  | true,  false, false, true  => execN1 s
  | true,  false, true,  false => execN2 s
  | true,  false, true,  true  => execN3 s
  | true,  true,  false, false => execN4 s
  | true,  true,  false, true  => execN5 s
  | true,  true,  true,  false => execN6 s
  | true,  true,  true,  true  => execN7 s

end Sys2Proof.Machine
end

