-- ==== Sys2Proof/Machine/Commands.lean ====
section
/-! DEFINITION. The two host commands (spec/45_host_commands.md R250, R251) and the host's accesses that are no instruction
(10_state.md R27, 20_memory.md R61 to R63, 70_reset_and_hazards.md R316, R317). -/

namespace Sys2Proof.Machine

/-- `START` (R250): a fresh cursor and accumulator, then CFGCHK; ignored while busy. -/
def execStart (s : State) : Out := if s.busy then .next s else .next (clearRun .cfgchk s)

/-- `CLEAR` (R251): every register the block writes to its reset value; ignored while busy. -/
def execClear (s : State) : Out := if s.busy then .next s else .next (clearRun .idle s)

/-- The registers whose value is exact also while the block is busy: CMD and the reserved ones read 0 (10_state.md R28,
R29), STATUS is exact (93_implementation_defined.md U4), CFG and ILEN are constant during a run (R30, R31; log 9). -/
def exactWhileBusy (n : Nat) : Bool := decide (n ≤ 3) || decide (15 ≤ n)

/-- A host read of register `n`: its value, or, of a register that moves while the block is busy, any value (R317, U4). -/
def readReg (n : Nat) (s : State) : State :=
  if s.busy && !exactWhileBusy n then { s with readback := .word (Config.anyWord s.draws), draws := s.draws + 1 }
  else { s with readback := .word (s.regValue n) }

/-- A host write of `IMEM[i]` (20_memory.md R61): no move while busy (U2). -/
def writeImem (i : Nat) (b : Byte) (s : State) : Out :=
  if s.busy then .refused .imemWriteWhileBusy
  else if ¬ i < s.par.icap then .fault .noSuchElement
  else .next { s with imem := Memory.put s.imem i b }

/-- A host read of `WMEM[i]` (20_memory.md R62): the sample when the block is not busy and `i < NSAMP`, else any value
(U3, U4). -/
def readWmem (i : Nat) (s : State) : Out :=
  if ¬ i < s.par.wcap then .fault .noSuchElement
  else if !s.busy && decide (i < s.nsamp) then .next { s with readback := .sample (s.wmemAt i) }
  else .next { s with readback := .sample (Config.anySample s.draws).toInt, draws := s.draws + 1 }

/-- A host read of `OMEM[i]` (20_memory.md R63): the byte in DONE below `OLEN`, else any value (U3, U4). -/
def readOmem (i : Nat) (s : State) : Out :=
  if ¬ i < s.par.ocap then .fault .noSuchElement
  else if decide (s.phase = .done) && decide (i < s.olen) then .next { s with readback := .byte (s.omemAt i) }
  else .next { s with readback := .byte (Config.anyByte s.draws), draws := s.draws + 1 }

end Sys2Proof.Machine
end

