-- ==== Sys2Proof/Machine/Front.lean ====
section
/-! DEFINITION. The CMP front end (spec/42_cmp_source.md): the phases CFGCHK, SIGCHK, HDRPARSE and DECODE. -/

namespace Sys2Proof.Machine

/-- `CFGCHK` (R180): the configuration is checked before anything is read. -/
def execCfgchk (s : State) : Out :=
  if s.bps = 0 ∨ Config.bMax < s.bps then .next (raiseError .cfgBps s.bps s)
  else if s.par.icap < s.ilen then .next (raiseError .cfgIlen s.ilen s)
  else
    match s.cfg.variant with
    | .header => .next { s with phase := .sigchk }
    | .headerless =>
      .next { s with rate := Config.defRate, prec := Config.defPrec, paysize := 0, poff := 0, phase := .decode }

/-- `SIGCHK` (R181): four bytes compared with the expected marker, exactly. -/
def execSigchk (s : State) : Out :=
  if s.ilen < 4 then .next (raiseError .fmtTruncHeader s.ilen s)
  else if ¬ s.imemReadable 0 4 then .fault .imemOutOfRange
  else
    let sig := s.imemBytes 0 4
    if sig ≠ s.par.sigExpected.toList then .next (raiseError .fmtSignature (leVal sig) s)
    else .next { s with phase := .hdrparse }

/-- `HDRPARSE` (R182): the fields of format `CMPH` (20_memory.md R66; precision is two bytes, 90_conflicts.md C1), checked in
the order of 60_exceptions.md R285. -/
def execHdrparse (s : State) : Out :=
  if s.ilen < 14 then .next (raiseError .fmtTruncHeader s.ilen s)
  else if ¬ s.imemReadable 4 10 then .fault .imemOutOfRange
  else
    let size := leVal (s.imemBytes 4 4)
    let rate := leVal (s.imemBytes 8 4)
    let prec := leVal (s.imemBytes 12 2)
    if prec ∉ Config.supportedPrec then .next (raiseError .fmtPrecision prec s)
    else if s.par.checkPaysize = true ∧ s.ilen - 14 < size then .next (raiseError .fmtTruncPayload (s.ilen - 14) s)
    else if 2 ^ 32 ≤ rate * s.bps then .next (raiseError .fmtRange rate s)
    else .next { s with paysize := size, rate := rate, prec := prec, poff := 14, phase := .decode }

/-- `DECODE` (R184): fetch and execute the code at `CP`, or end the decode. -/
def execDecode (s : State) : Out :=
  if (s.cp : Int) = s.codeCount then .next { s with phase := .wavhdr }
  else if ¬ s.imemReadable s.codeByteIndex 1 then .fault .imemOutOfRange
  else execCode s.currentCode s

end Sys2Proof.Machine
end

