-- ==== Sys2Proof/Machine/Sink.lean ====
section
/-! DEFINITION. The WAV serializer (spec/44_wav_sink.md): the phases WAVHDR, WAVDATA and BACKFILL. -/

namespace Sys2Proof.Machine

/-- `WAVHDR` (R222): the whole length is checked against OMEM before the first byte; the size fields are zeros until
BACKFILL (92_eei_decisions.md D24). -/
def execWavhdr (s : State) : Out :=
  if s.par.ocap < 44 + s.nsamp * s.bps then .next (raiseError .ioFull s.nsamp s)
  else if ¬ (s.rate < 2 ^ 32 ∧ s.rate * s.bps < 2 ^ 32) then .fault .fieldOutOfRange
  else
    .next { s with
      omem := Memory.putAll s.omem 0 (wavHeader 0 0 s.rate s.bps)
      olen := 44
      sp := 0
      phase := .wavdata }

/-- `WAVDATA` (R224): normalize and write one sample, or end the payload. -/
def execWavdata (s : State) : Out :=
  if s.sp = s.nsamp then .next { s with phase := .backfill }
  else if ¬ s.sp < s.nsamp then .fault .wmemOutOfRange
  else if ¬ (1 ≤ s.prec ∧ s.prec ≤ 16) then .fault .precisionOutOfRange
  else if s.bps = 0 then .fault .widthOutOfRange
  else if s.par.ocap < s.olen + s.bps then .fault .omemOutOfRange
  else
    .next { s with
      omem := Memory.putAll s.omem s.olen (sampleBytes (s.wmemAt s.sp) s.prec s.bps)
      olen := s.olen + s.bps
      sp := s.sp + 1 }

/-- `BACKFILL` (R225): the two size fields, each the count of bytes that follow it in its chunk. -/
def execBackfill (s : State) : Out :=
  if ¬ (44 ≤ s.olen ∧ s.olen - 8 < 2 ^ 32) then .fault .fieldOutOfRange
  else if s.par.ocap < 44 then .fault .omemOutOfRange
  else
    .next { s with
      omem := Memory.putAll (Memory.putAll s.omem 4 (le 4 (s.olen - 8))) 40 (le 4 (s.olen - 44))
      phase := .done }

end Sys2Proof.Machine
end

