-- ==== Sys2Proof/Machine/Dispatch.lean ====
section
/-! DEFINITION. One arm per instruction. -/

namespace Sys2Proof.Machine

def exec (i : Instr) (s : State) : Host.Outcome State Fault Refusal :=
  match i with
  | .p0 => Sys2Proof.Machine.execP0 s
  | .p1 => Sys2Proof.Machine.execP1 s
  | .p2 => Sys2Proof.Machine.execP2 s
  | .p3 => Sys2Proof.Machine.execP3 s
  | .p4 => Sys2Proof.Machine.execP4 s
  | .p5 => Sys2Proof.Machine.execP5 s
  | .p6 => Sys2Proof.Machine.execP6 s
  | .p7 => Sys2Proof.Machine.execP7 s
  | .n0 => Sys2Proof.Machine.execN0 s
  | .n1 => Sys2Proof.Machine.execN1 s
  | .n2 => Sys2Proof.Machine.execN2 s
  | .n3 => Sys2Proof.Machine.execN3 s
  | .n4 => Sys2Proof.Machine.execN4 s
  | .n5 => Sys2Proof.Machine.execN5 s
  | .n6 => Sys2Proof.Machine.execN6 s
  | .n7 => Sys2Proof.Machine.execN7 s
  | .start => Sys2Proof.Machine.execStart s
  | .clear => Sys2Proof.Machine.execClear s
  | .cfgchk => Sys2Proof.Machine.execCfgchk s
  | .sigchk => Sys2Proof.Machine.execSigchk s
  | .hdrparse => Sys2Proof.Machine.execHdrparse s
  | .decode => Sys2Proof.Machine.execDecode s
  | .wavhdr => Sys2Proof.Machine.execWavhdr s
  | .wavdata => Sys2Proof.Machine.execWavdata s
  | .backfill => Sys2Proof.Machine.execBackfill s

end Sys2Proof.Machine
end

