-- ==== Sys2Proof/Machine/Fetch.lean ====
section
/-! DEFINITION. Which instruction the next step runs: the one PHASE selects, the command the host writes to CMD, or none
(spec/00_scope.md R10, 10_state.md R28, R33); and the placing of an instruction where the next step finds it. -/

namespace Sys2Proof.Machine

/-- What the next step does: run an instruction in a state, or something that is no instruction. -/
inductive Fetched where
  | run (i : Instr) (s : State)
  | other (o : Out)

/-- A turn of the block (R33): the operation PHASE selects; in IDLE, DONE and ERROR the block has no step and stays as it
is (70_reset_and_hazards.md R318). -/
def blockTurn (s : State) : Fetched :=
  match decodePhase s.phase.number with
  | .ok i => .run i s
  | .error _ => .other (.next s)

/-- A turn of the outside. A write to CMD is decoded as a command; a reserved value changes nothing (R28,
30_encoding.md R103). -/
def outsideTurn (a : Outside) (s : State) : Fetched :=
  match a with
  | .writeReg 0 v =>
    match decodeCommand v with
    | .ok i => .run i s
    | .error _ => .other (.next s)
  | .writeReg n v => .other (.next (writeReg n v s))
  | .readReg n => .other (.next (readReg n s))
  | .writeImem i b => .other (writeImem i b s)
  | .readWmem i => .other (readWmem i s)
  | .readOmem i => .other (readOmem i s)
  | .reset => .other (.next (resetEvent s))

/-- The next turn, taken off the agenda; an empty agenda leaves every turn to the block (log 3). -/
def fetchNext (s : State) : Fetched :=
  match s.agenda with
  | [] => blockTurn s
  | .block :: rest => blockTurn { s with agenda := rest }
  | .outside a :: rest => outsideTurn a { s with agenda := rest }

/-- A state whose next step executes the first code of byte `b` (its low nibble): the byte is stored where code `CP` is
fetched, the nibbles placed as NIBORD and the parity of `CP` need, the file made long enough, and PHASE is DECODE.
A precision or a cursor for which no code has a result is replaced by that of a headerless stream's start (log 5). -/
def placeCode (b : Byte) (s : State) : State :=
  let c := lowNibble b
  let d := highNibble b
  let byte := if s.cp % 2 = 0 then pairByte s.cfg.nibord c d else pairByte s.cfg.nibord d c
  { s with
    agenda := .block :: s.agenda
    phase := .decode
    imem := Memory.put s.imem s.codeByteIndex byte
    ilen := if s.codeByteIndex < s.ilen then s.ilen else s.codeByteIndex + 1
    prec := if 1 ≤ s.prec ∧ s.prec ≤ 16 then s.prec else Config.defPrec
    idx := if s.idx < s.cfg.profile.length then s.idx else 0 }

/-- A state whose next step is the host's write of `w` to CMD. -/
def placeCommand (w : Word) (s : State) : State := { s with agenda := .outside (.writeReg 0 w) :: s.agenda }

end Sys2Proof.Machine
end

