-- ==== Sys2Proof/Safety.lean ====
section
/-! DEFINITION. What claims are stated in: the invariant of the block (what the spec says of every reachable state), when a
turn is the block's, what one run reads, which error a run must end in (spec/60_exceptions.md R285), the waveform and the
file a run must produce (41_adpcm_decoder.md R142, 44_wav_sink.md R228). -/

namespace Sys2Proof.Machine

/-! ## Turns -/

/-- The next turn is the block's, not the outside's. -/
def State.blockMoves (s : State) : Bool :=
  match s.agenda with
  | .outside _ :: _ => false
  | _ => true

/-- The state after the next turn is taken off the agenda. -/
def State.popTurn (s : State) : State := { s with agenda := s.agenda.tail }

/-- `k` steps of the machine. -/
def runFor (k : Nat) (s : State) : Out := Host.Core.run Sys2Proof.core k s

/-! ## The invariant -/

/-- Every register the block writes is 0, as START, CLEAR and reset leave it (45_host_commands.md R250, R251). -/
def FreshRun (s : State) : Prop :=
  s.idx = 0 ∧ s.acc = 0 ∧ s.cp = 0 ∧ s.sp = 0 ∧ s.nsamp = 0 ∧ s.olen = 0 ∧ s.rate = 0 ∧ s.prec = 0 ∧ s.paysize = 0
    ∧ s.poff = 0

/-- No error is reported (10_state.md R34, R35). -/
def NoError (s : State) : Prop := s.err = .none ∧ s.errinfo = 0

/-- What CFGCHK has established (42_cmp_source.md R180). -/
def ConfigChecked (s : State) : Prop := 1 ≤ s.bps ∧ s.bps ≤ Config.bMax ∧ s.ilen ≤ s.par.icap

/-- What the front end has established about the stream (R180, R182; 10_state.md R36 to R38). -/
def MetadataSet (s : State) : Prop :=
  (s.cfg.variant = .headerless ∧ s.rate = Config.defRate ∧ s.prec = Config.defPrec ∧ s.paysize = 0 ∧ s.poff = 0)
  ∨ (s.cfg.variant = .header ∧ s.rate < 2 ^ 32 ∧ s.rate * s.bps < 2 ^ 32 ∧ s.prec = 16 ∧ s.paysize < 2 ^ 32
      ∧ s.poff = 14 ∧ 14 ≤ s.ilen)

/-- The samples so far: as many as codes, each written and inside the range of the precision, as ACC is
(10_state.md R22, R23; 41_adpcm_decoder.md R140, R144). -/
def WaveformSound (s : State) : Prop :=
  s.nsamp = s.cp ∧ s.cp ≤ s.par.wcap ∧ sampleMin s.prec ≤ s.acc ∧ s.acc ≤ sampleMax s.prec
  ∧ ∀ i, i < s.nsamp → ∃ v, Memory.look s.wmem i = some v ∧ sampleMin s.prec ≤ v ∧ v ≤ sampleMax s.prec

/-- Every byte of `OMEM[0 .. OLEN-1]` has been written (20_memory.md R63). -/
def OutputWritten (s : State) : Prop := ∀ i, i < s.olen → ∃ b, Memory.look s.omem i = some b

/-- What holds from the end of the front end to the end of the run. -/
def InStream (s : State) : Prop :=
  NoError s ∧ ConfigChecked s ∧ MetadataSet s ∧ WaveformSound s ∧ s.idx < s.cfg.profile.length

/-- All codes have been executed (42_cmp_source.md R184). -/
def DecodeComplete (s : State) : Prop := (s.cp : Int) = s.codeCount

/-- A finished export (44_wav_sink.md R226). The width is that of the run, which the host may have changed in CFG since
(log 15). -/
def Exported (s : State) : Prop :=
  (∃ b, 1 ≤ b ∧ b ≤ Config.bMax ∧ s.olen = 44 + s.nsamp * b) ∧ s.olen ≤ s.par.ocap ∧ s.sp = s.nsamp
  ∧ leVal (s.omemBytes 4 4) = s.olen - 8 ∧ leVal (s.omemBytes 40 4) = s.olen - 44

/-- What each phase means (10_state.md R33, R34; 60_exceptions.md R273, R277). -/
def PhaseInv (s : State) : Prop :=
  match s.phase with
  | .idle => NoError s ∧ FreshRun s
  | .cfgchk => NoError s ∧ FreshRun s
  | .sigchk => NoError s ∧ FreshRun s ∧ ConfigChecked s ∧ s.cfg.variant = .header
  | .hdrparse => NoError s ∧ FreshRun s ∧ ConfigChecked s ∧ s.cfg.variant = .header ∧ 4 ≤ s.ilen
  | .decode => InStream s ∧ (s.cp : Int) ≤ s.codeCount ∧ s.sp = 0 ∧ s.olen = 0
  | .wavhdr => InStream s ∧ DecodeComplete s ∧ s.sp = 0 ∧ s.olen = 0
  | .wavdata => InStream s ∧ DecodeComplete s ∧ s.sp ≤ s.nsamp ∧ s.olen = 44 + s.sp * s.bps
      ∧ 44 + s.nsamp * s.bps ≤ s.par.ocap ∧ OutputWritten s
  | .backfill => InStream s ∧ DecodeComplete s ∧ s.sp = s.nsamp ∧ s.olen = 44 + s.nsamp * s.bps
      ∧ s.olen ≤ s.par.ocap ∧ OutputWritten s
  | .done => NoError s ∧ WaveformSound s ∧ Exported s ∧ OutputWritten s
  | .error => s.olen = 0 ∧ ((s.err = .ioFull ∧ WaveformSound s ∧ s.sp = 0)
      ∨ (s.err ≠ .none ∧ s.err ≠ .ioFull ∧ FreshRun s))

/-- The width of every register the spec gives a width, and the legal values of PREC and POFF
(10_state.md R21 to R40). -/
structure RegistersFit (s : State) : Prop where
  errinfo : s.errinfo < 2 ^ 32
  ilen : s.ilen < 2 ^ 32
  nsamp : s.nsamp < 2 ^ 32
  olen : s.olen < 2 ^ 32
  rate : s.rate < 2 ^ 32
  prec : s.prec = 0 ∨ s.prec = 12 ∨ s.prec = 16
  paysize : s.paysize < 2 ^ 32
  poff : s.poff = 0 ∨ s.poff = 14
  idx : s.idx < 89
  acc : -32768 ≤ s.acc ∧ s.acc ≤ 32767
  cp : s.cp < 2 ^ 32
  sp : s.sp < 2 ^ 32

/-- The memories are in canonical form and inside their index ranges, every sample a signed 16-bit number
(20_memory.md R60). -/
structure MemoriesFit (s : State) : Prop where
  imem_wf : Memory.wf s.imem
  wmem_wf : Memory.wf s.wmem
  omem_wf : Memory.wf s.omem
  imem_range : ∀ c, c ∈ s.imem → c.1 < s.par.icap
  wmem_range : ∀ c, c ∈ s.wmem → c.1 < s.par.wcap ∧ -32768 ≤ c.2 ∧ c.2 ≤ 32767
  omem_range : ∀ c, c ∈ s.omem → c.1 < s.par.ocap

/-- The invariant of the block: what the spec says of every state a block can be in. -/
structure BlockInv (s : State) : Prop where
  params : s.par.wf = true
  registers : RegistersFit s
  memories : MemoriesFit s
  phase : PhaseInv s

/-! ## Where an instruction completes -/

/-- `T`, the table the profile selects, as the list of its entries (00_scope.md R9). -/
def tableOf (p : Params) : Profile → List Nat
  | .short => p.t16.toList
  | .full => p.t89.toList

/-- `t = T[IDX]` (40_step_table.md R122). -/
def StepIs (s : State) (t : Nat) : Prop := (tableOf s.par s.cfg.profile)[s.idx]? = some t

/-- `clamp(IDX + a, 0, L - 1)` (40_step_table.md R123), the number the cursor becomes. -/
def cursorAfter (s : State) (a : Int) : Nat := (max 0 (min ((s.idx : Int) + a) (s.cfg.profile.length - 1))).toNat

/-- A code has a result here: `T[IDX]`, the range of `PREC` and `WMEM[CP]` exist (10_state.md R21, R24, R36). -/
def CodeDefined (s : State) : Prop :=
  s.idx < s.cfg.profile.length ∧ 1 ≤ s.prec ∧ s.prec ≤ 16 ∧ s.cp < s.par.wcap

/-- The state a code leaves, with `diff` and the cursor's new value given (41_adpcm_decoder.md R141). -/
def afterCode (diff : Int) (newIdx : Nat) (s : State) : State :=
  let v := clampInt (s.acc + diff) (-(2 ^ (s.prec - 1))) (2 ^ (s.prec - 1) - 1)
  { s with wmem := Memory.put s.wmem s.cp v, acc := v, idx := newIdx, cp := s.cp + 1, nsamp := s.nsamp + 1 }

/-! ## What one run reads, and what it must answer -/

/-- The first payload byte's index for the configured variant (20_memory.md R66). -/
def State.payloadStart (s : State) : Nat := match s.cfg.variant with | .headerless => 0 | .header => 14

/-- The number of codes of the file in IMEM. -/
def State.fileCodes (s : State) : Nat := 2 * (s.ilen - s.payloadStart)

/-- The capacity check of WAVHDR (60_exceptions.md R277). -/
def capacityVerdict (s : State) : Option (Err × Nat) :=
  if s.par.ocap < 44 + s.fileCodes * s.bps then some (.ioFull, s.fileCodes) else none

/-- The header's checks in their order (60_exceptions.md R285, R272). -/
def headerVerdict (s : State) : Option (Err × Nat) :=
  if s.ilen < 4 then some (.fmtTruncHeader, s.ilen)
  else if s.imemBytes 0 4 ≠ s.par.sigExpected.toList then some (.fmtSignature, leVal (s.imemBytes 0 4))
  else if s.ilen < 14 then some (.fmtTruncHeader, s.ilen)
  else if leVal (s.imemBytes 12 2) ≠ 16 then some (.fmtPrecision, leVal (s.imemBytes 12 2))
  else if s.par.checkPaysize = true ∧ s.ilen - 14 < leVal (s.imemBytes 4 4) then some (.fmtTruncPayload, s.ilen - 14)
  else if 2 ^ 32 ≤ leVal (s.imemBytes 8 4) * s.bps then some (.fmtRange, leVal (s.imemBytes 8 4))
  else none

/-- The error a run started in `s` must end in, with its information word, or none (60_exceptions.md R285): the first cause
met. -/
def verdict (s : State) : Option (Err × Nat) :=
  if s.bps = 0 ∨ Config.bMax < s.bps then some (.cfgBps, s.bps)
  else if s.par.icap < s.ilen then some (.cfgIlen, s.ilen)
  else
    match s.cfg.variant with
    | .headerless => capacityVerdict s
    | .header => match headerVerdict s with | some e => some e | none => capacityVerdict s

/-- The steps a run takes (70_reset_and_hazards.md R319): up to the raising step if it ends in an error. -/
def runLength (s : State) : Nat :=
  let front := match s.cfg.variant with | .headerless => 1 | .header => 3
  match verdict s with
  | some (.cfgBps, _) => 1
  | some (.cfgIlen, _) => 1
  | some (.fmtSignature, _) => 2
  | some (.fmtTruncHeader, _) => if s.ilen < 4 then 2 else 3
  | some (.fmtPrecision, _) => 3
  | some (.fmtTruncPayload, _) => 3
  | some (.fmtRange, _) => 3
  | some (.ioFull, _) => front + (s.fileCodes + 1) + 1
  | _ => front + (s.fileCodes + 1) + 1 + (s.fileCodes + 1) + 1

/-! ## The waveform and the file -/

/-- The cursor and the accumulator after one code (41_adpcm_decoder.md R142). -/
def decodeOne (p : Params) (pr : Profile) (prec : Nat) (a : Int) (i : Nat) (c : Code) : Int × Nat :=
  let t := stepAt p pr i
  let d : Nat := t * Code.bit c 2 + (t / 2) * Code.bit c 1 + (t / 4) * Code.bit c 0 + t / 8
  let x : Int := a + (if Code.sign c then -(d : Int) else (d : Int))
  (max (-(2 ^ (prec - 1))) (min x (2 ^ (prec - 1) - 1)),
   (max 0 (min ((i : Int) + adjust (Code.selector c)) (pr.length - 1))).toNat)

/-- The whole decode as the recurrence of R142, from accumulator `a` and cursor `i`: one sample for each code. -/
def decodeFrom (p : Params) (pr : Profile) (prec : Nat) : Int → Nat → List Code → List Int
  | _, _, [] => []
  | a, i, c :: cs =>
    let r := decodeOne p pr prec a i c
    r.1 :: decodeFrom p pr prec r.1 r.2 cs

/-- The accumulator and the cursor the recurrence ends with. -/
def decodeEnd (p : Params) (pr : Profile) (prec : Nat) : Int → Nat → List Code → Int × Nat
  | a, i, [] => (a, i)
  | a, i, c :: cs =>
    let r := decodeOne p pr prec a i c
    decodeEnd p pr prec r.1 r.2 cs

/-- The samples `WMEM[a .. a+n-1]`. -/
def State.wmemSamples (s : State) (a : Nat) : Nat → List Int
  | 0 => []
  | n + 1 => s.wmemAt a :: s.wmemSamples (a + 1) n

/-- The closed form of a finished export (44_wav_sink.md R228), for width `b` and precision `prec`. -/
def wavFile (w : List Int) (rate prec b : Nat) : List Byte :=
  tagRiff ++ le 4 (36 + w.length * b) ++ tagWave ++ tagFmt ++ le 4 16 ++ le 2 1 ++ le 2 1 ++ le 4 rate ++ le 4 (rate * b)
    ++ le 2 b ++ le 2 (8 * b) ++ tagData ++ le 4 (w.length * b) ++ w.flatMap (fun x => sampleBytes x prec b)

/-- The codes of the file in IMEM in playback order (42_cmp_source.md R184, R185). -/
def State.fileStream (s : State) : List Code :=
  unpackCodes s.cfg.nibord (s.imemBytes s.payloadStart (s.ilen - s.payloadStart))

/-- The precision and the rate the front end takes for the file in IMEM (42_cmp_source.md R180, R182). -/
def State.filePrec (s : State) : Nat :=
  match s.cfg.variant with | .headerless => Config.defPrec | .header => leVal (s.imemBytes 12 2)

def State.fileRate (s : State) : Nat :=
  match s.cfg.variant with | .headerless => Config.defRate | .header => leVal (s.imemBytes 8 4)

/-! ## Comparing two states -/

/-- Every element of every memory reads as before. -/
def MemoriesAsBefore (s t : State) : Prop :=
  (∀ a, t.imemAt a = s.imemAt a) ∧ (∀ a, t.wmemAt a = s.wmemAt a) ∧ (∀ a, t.omemAt a = s.omemAt a)

/-- What the host and the builder of the block set is as before, and so is the model's own book-keeping. -/
def HostSideAsBefore (s t : State) : Prop :=
  t.par = s.par ∧ t.cfg = s.cfg ∧ t.ilen = s.ilen ∧ t.agenda = s.agenda ∧ t.readback = s.readback ∧ t.epoch = s.epoch
  ∧ t.draws = s.draws

/-- The stream's metadata is as before. -/
def MetadataAsBefore (s t : State) : Prop :=
  t.rate = s.rate ∧ t.prec = s.prec ∧ t.paysize = s.paysize ∧ t.poff = s.poff

/-- The decoder's registers are as before. -/
def DecoderAsBefore (s t : State) : Prop :=
  t.idx = s.idx ∧ t.acc = s.acc ∧ t.cp = s.cp ∧ t.nsamp = s.nsamp

/-- Two blocks that a run cannot tell apart before START: same parameters, configuration, length and file
(70_reset_and_hazards.md R320). -/
def SameInputs (s t : State) : Prop :=
  s.par = t.par ∧ s.cfg = t.cfg ∧ s.ilen = t.ilen ∧ ∀ i, i < s.ilen → s.imemAt i = t.imemAt i

/-- Two blocks that agree in every register and in the valid part of every memory. -/
def SameRun (s t : State) : Prop :=
  SameInputs s t ∧ s.phase = t.phase ∧ s.err = t.err ∧ s.errinfo = t.errinfo ∧ s.nsamp = t.nsamp ∧ s.olen = t.olen
  ∧ s.rate = t.rate ∧ s.prec = t.prec ∧ s.paysize = t.paysize ∧ s.poff = t.poff ∧ s.idx = t.idx ∧ s.acc = t.acc
  ∧ s.cp = t.cp ∧ s.sp = t.sp ∧ s.agenda = t.agenda
  ∧ (∀ i, i < s.nsamp → s.wmemAt i = t.wmemAt i) ∧ (∀ i, i < s.olen → s.omemAt i = t.omemAt i)

/-- The seven phases in which the block has a step (10_state.md R33), and the operation of each (30_encoding.md R98). -/
def Phase.operation : Phase → Option Instr
  | .idle => none
  | .cfgchk => some .cfgchk
  | .sigchk => some .sigchk
  | .hdrparse => some .hdrparse
  | .decode => some .decode
  | .wavhdr => some .wavhdr
  | .wavdata => some .wavdata
  | .backfill => some .backfill
  | .done => none
  | .error => none

/-- The sixteen codes. -/
def isCode : Instr → Bool
  | .p0 | .p1 | .p2 | .p3 | .p4 | .p5 | .p6 | .p7 => true
  | .n0 | .n1 | .n2 | .n3 | .n4 | .n5 | .n6 | .n7 => true
  | .start | .clear => false
  | .cfgchk | .sigchk | .hdrparse | .decode | .wavhdr | .wavdata | .backfill => false

end Sys2Proof.Machine
end

