-- ==== Sys2Proof/Certificates/Slice0/Obligations.lean ====
section
/-! DEFINITION. The statements for the provers, one for each entry of OBLIGATIONS.json. -/

open Sys2Proof Sys2Proof.Machine

/-! ## Encoding and decoding -/

/-- 30_encoding.md R92, R97, R98, R99, R103: encoding loses nothing, every encoding has one meaning, and exactly the reserved
values are turned away. -/
def Obligations.DecodeEncodeAgree : Prop :=
  (∀ i : Instr, (encode i).wf = true ∧ decode (encode i) = .ok i)
  ∧ (∀ (e : Encoded) (i : Instr), decode e = .ok i → encode i = e ∧ e.wf = true)
  ∧ (∀ e : Encoded, e.wf = false → ∃ r, decode e = .error r)

/-- 30_encoding.md R93, R99, R104 and 42_cmp_source.md R185: packing codes into bytes and unpacking them in playback order
gives them back, and every byte string is the packing of what it unpacks to, in both nibble orders. -/
def Obligations.StreamPackUnpack : Prop :=
  (∀ (ord : NibOrder) (cs : List Code), cs.length % 2 = 0 → unpackCodes ord (packCodes ord cs) = cs)
  ∧ (∀ (ord : NibOrder) (bs : List Byte), packCodes ord (unpackCodes ord bs) = bs)
  ∧ (∀ (ord : NibOrder) (bs : List Byte), (unpackCodes ord bs).length = 2 * bs.length)

/-- 42_cmp_source.md R184, R185, 10_state.md R24: the code the block fetches at `CP` is number `CP` of the payload's codes in
playback order. -/
def Obligations.FetchFollowsPlaybackOrder : Prop :=
  ∀ s : State, (s.cp : Int) < 2 * ((s.ilen : Int) - s.poff) →
    (unpackCodes s.cfg.nibord (s.imemBytes s.poff (s.ilen - s.poff)))[s.cp]?
      = some (nib s.cfg.nibord (s.imemAt (s.poff + s.cp / 2)) (s.cp % 2))

/-- 30_encoding.md R92, R97, R98: words written out from the tables decode to what they stand for. -/
def Obligations.OpcodeWordsDecode : Prop :=
  decode (.code 0b0000#4) = .ok .p0 ∧ decode (.code 0b0110#4) = .ok .p6 ∧ decode (.code 0b1001#4) = .ok .n1
  ∧ decode (.code 0b1100#4) = .ok .n4 ∧ decode (.code 0b1111#4) = .ok .n7
  ∧ decode (.command 0x00000001#32) = .ok .start ∧ decode (.command 0x00000002#32) = .ok .clear
  ∧ decode (.command 0x00000101#32) = .error (.reservedCommand 0x00000101#32)
  ∧ decode (.phase 0b0001#4) = .ok .cfgchk ∧ decode (.phase 0b0100#4) = .ok .decode
  ∧ decode (.phase 0b0111#4) = .ok .backfill ∧ decode (.phase 0b1000#4) = .error (.noOperation 0b1000#4)
  ∧ decodeTableWord 8 0xD = some .n5 ∧ decodeTableWord 32 2 = some .clear ∧ decodeTableWord 32 3 = none

/-! ## A step runs the decoded instruction -/

/-- 10_state.md R33, 30_encoding.md R98, 70_reset_and_hazards.md R318: in the block's turn the step is the operation that
decodes from STATUS bits 3:0, in the state with that turn taken off the agenda; where none does, the block stays. -/
def Obligations.StepRunsSelectedOperation : Prop :=
  ∀ s : State, s.blockMoves = true →
    (∀ i, decode (.phase s.phase.number) = .ok i → step s = exec i s.popTurn)
    ∧ (s.phase = .cfgchk → step s = exec .cfgchk s.popTurn)
    ∧ (s.phase = .sigchk → step s = exec .sigchk s.popTurn)
    ∧ (s.phase = .hdrparse → step s = exec .hdrparse s.popTurn)
    ∧ (s.phase = .decode → step s = exec .decode s.popTurn)
    ∧ (s.phase = .wavhdr → step s = exec .wavhdr s.popTurn)
    ∧ (s.phase = .wavdata → step s = exec .wavdata s.popTurn)
    ∧ (s.phase = .backfill → step s = exec .backfill s.popTurn)
    ∧ (s.phase = .idle ∨ s.phase = .done ∨ s.phase = .error → step s = .next s.popTurn)

/-- 42_cmp_source.md R184: in phase DECODE with a code left, the step is the instruction the fetched nibble decodes to. -/
def Obligations.DecodeStepRunsFetchedCode : Prop :=
  ∀ s : State, s.blockMoves = true → s.phase = .decode → (s.cp : Int) ≠ 2 * ((s.ilen : Int) - s.poff) →
    s.imemReadable (s.poff + s.cp / 2) 1 = true →
    ∀ i, decode (.code (nib s.cfg.nibord (s.imemAt (s.poff + s.cp / 2)) (s.cp % 2))) = .ok i →
      step s = exec i s.popTurn

/-- 10_state.md R28, 30_encoding.md R97, R103: a host write to CMD runs the command the word decodes to; a reserved word
changes nothing. -/
def Obligations.CommandWriteRunsCommand : Prop :=
  ∀ (s : State) (v : Word) (rest : List Turn), s.agenda = .outside (.writeReg 0 v) :: rest →
    (∀ i, decode (.command v) = .ok i → step s = exec i { s with agenda := rest })
    ∧ (v ≠ 1#32 → v ≠ 2#32 → step s = .next { s with agenda := rest })

/-- The model's own placing of an instruction (log 5): the next step runs it. -/
def Obligations.PlacedInstructionRuns : Prop :=
  (∀ (s : State) (w : Nat), w < 16 → s.poff + s.cp / 2 < s.par.icap →
    ∃ i, decodeTableWord 8 w = some i ∧ i = decodeCode (BitVec.ofNat 4 w)
      ∧ step (s.withFetchWord 8 w) = exec i (s.withFetchWord 8 w).popTurn)
  ∧ (∀ (s : State) (w : Nat) (i : Instr), decodeTableWord 32 w = some i →
    step (s.withFetchWord 32 w) = exec i s)

/-! ## The sixteen codes -/

/-- 41_adpcm_decoder.md R150 to R157, one clause a code: with `t = T[IDX]`, the sample `clamp(ACC + d)` is written and kept,
the cursor moves and saturates, `CP` and `NSAMP` advance, and nothing else changes. -/
def Obligations.PositiveCodesResult : Prop :=
  ∀ (s : State) (t : Nat), CodeDefined s → StepIs s t →
    (encode .p0 = .code 0b0000#4
      ∧ exec .p0 s = .next (afterCode ((t >>> 3 : Nat) : Int) (cursorAfter s (-1)) s))
    ∧ (encode .p1 = .code 0b0001#4
      ∧ exec .p1 s = .next (afterCode (((t >>> 2) + (t >>> 3) : Nat) : Int) (cursorAfter s (-1)) s))
    ∧ (encode .p2 = .code 0b0010#4
      ∧ exec .p2 s = .next (afterCode (((t >>> 1) + (t >>> 3) : Nat) : Int) (cursorAfter s (-1)) s))
    ∧ (encode .p3 = .code 0b0011#4
      ∧ exec .p3 s = .next (afterCode (((t >>> 1) + (t >>> 2) + (t >>> 3) : Nat) : Int) (cursorAfter s (-1)) s))
    ∧ (encode .p4 = .code 0b0100#4
      ∧ exec .p4 s = .next (afterCode ((t + (t >>> 3) : Nat) : Int) (cursorAfter s 2) s))
    ∧ (encode .p5 = .code 0b0101#4
      ∧ exec .p5 s = .next (afterCode ((t + (t >>> 2) + (t >>> 3) : Nat) : Int) (cursorAfter s 4) s))
    ∧ (encode .p6 = .code 0b0110#4
      ∧ exec .p6 s = .next (afterCode ((t + (t >>> 1) + (t >>> 3) : Nat) : Int) (cursorAfter s 6) s))
    ∧ (encode .p7 = .code 0b0111#4
      ∧ exec .p7 s = .next (afterCode ((t + (t >>> 1) + (t >>> 2) + (t >>> 3) : Nat) : Int) (cursorAfter s 8) s))

/-- 41_adpcm_decoder.md R158 to R165: the same with the difference subtracted. -/
def Obligations.NegativeCodesResult : Prop :=
  ∀ (s : State) (t : Nat), CodeDefined s → StepIs s t →
    (encode .n0 = .code 0b1000#4
      ∧ exec .n0 s = .next (afterCode (-((t >>> 3 : Nat) : Int)) (cursorAfter s (-1)) s))
    ∧ (encode .n1 = .code 0b1001#4
      ∧ exec .n1 s = .next (afterCode (-(((t >>> 2) + (t >>> 3) : Nat) : Int)) (cursorAfter s (-1)) s))
    ∧ (encode .n2 = .code 0b1010#4
      ∧ exec .n2 s = .next (afterCode (-(((t >>> 1) + (t >>> 3) : Nat) : Int)) (cursorAfter s (-1)) s))
    ∧ (encode .n3 = .code 0b1011#4
      ∧ exec .n3 s = .next (afterCode (-(((t >>> 1) + (t >>> 2) + (t >>> 3) : Nat) : Int)) (cursorAfter s (-1)) s))
    ∧ (encode .n4 = .code 0b1100#4
      ∧ exec .n4 s = .next (afterCode (-((t + (t >>> 3) : Nat) : Int)) (cursorAfter s 2) s))
    ∧ (encode .n5 = .code 0b1101#4
      ∧ exec .n5 s = .next (afterCode (-((t + (t >>> 2) + (t >>> 3) : Nat) : Int)) (cursorAfter s 4) s))
    ∧ (encode .n6 = .code 0b1110#4
      ∧ exec .n6 s = .next (afterCode (-((t + (t >>> 1) + (t >>> 3) : Nat) : Int)) (cursorAfter s 6) s))
    ∧ (encode .n7 = .code 0b1111#4
      ∧ exec .n7 s = .next (afterCode (-((t + (t >>> 1) + (t >>> 2) + (t >>> 3) : Nat) : Int)) (cursorAfter s 8) s))

/-- 41_adpcm_decoder.md R141, for every code: `d = t*b2 + (t >> 1)*b1 + (t >> 2)*b0 + (t >> 3)`, negated if `s = 1`, and the
cursor moved by `ADJ[m]`. All reads are of the state before. -/
def Obligations.CodesFollowGeneralRule : Prop :=
  ∀ (c : Code) (s : State) (t : Nat), CodeDefined s → StepIs s t →
    exec (decodeCode c) s =
      .next (afterCode
        ((if c.getLsbD 3 then (-1 : Int) else 1)
          * ((t * (c.toNat / 4 % 2) + (t >>> 1) * (c.toNat / 2 % 2) + (t >>> 2) * (c.toNat % 2) + (t >>> 3) : Nat) : Int))
        (cursorAfter s (([-1, -1, -1, -1, 2, 4, 6, 8] : List Int).getD (c.toNat % 8) 0)) s)

/-- Where a primitive of 00_scope.md R9 is not defined the instruction stops by name (the model's choice, log 12); no run
gets there (`BlockNeverStops`). -/
def Obligations.UndefinedOperandsStop : Prop :=
  (∀ (i : Instr) (s : State), isCode i = true →
      (s.cfg.profile.length ≤ s.idx → exec i s = .fault .cursorOutOfTable)
      ∧ (s.idx < s.cfg.profile.length → s.prec = 0 ∨ 16 < s.prec → exec i s = .fault .precisionOutOfRange)
      ∧ (s.idx < s.cfg.profile.length → 1 ≤ s.prec → s.prec ≤ 16 → s.par.wcap ≤ s.cp →
          exec i s = .fault .wmemOutOfRange))
  ∧ (∀ s : State, 4 ≤ s.ilen → s.par.icap < 4 → exec .sigchk s = .fault .imemOutOfRange)
  ∧ (∀ s : State, 14 ≤ s.ilen → s.par.icap < 14 → exec .hdrparse s = .fault .imemOutOfRange)
  ∧ (∀ s : State, (s.cp : Int) ≠ 2 * ((s.ilen : Int) - s.poff) →
      s.ilen ≤ s.poff + s.cp / 2 ∨ s.par.icap ≤ s.poff + s.cp / 2 → exec .decode s = .fault .imemOutOfRange)
  ∧ (∀ s : State, 44 + s.nsamp * s.bps ≤ s.par.ocap → 2 ^ 32 ≤ s.rate ∨ 2 ^ 32 ≤ s.rate * s.bps →
      exec .wavhdr s = .fault .fieldOutOfRange)
  ∧ (∀ s : State, s.nsamp < s.sp → exec .wavdata s = .fault .wmemOutOfRange)
  ∧ (∀ s : State, s.sp < s.nsamp → s.prec = 0 ∨ 16 < s.prec → exec .wavdata s = .fault .precisionOutOfRange)
  ∧ (∀ s : State, s.sp < s.nsamp → 1 ≤ s.prec → s.prec ≤ 16 → s.bps = 0 → exec .wavdata s = .fault .widthOutOfRange)
  ∧ (∀ s : State, s.sp < s.nsamp → 1 ≤ s.prec → s.prec ≤ 16 → 1 ≤ s.bps → s.par.ocap < s.olen + s.bps →
      exec .wavdata s = .fault .omemOutOfRange)
  ∧ (∀ s : State, s.olen < 44 ∨ 2 ^ 32 ≤ s.olen - 8 → exec .backfill s = .fault .fieldOutOfRange)
  ∧ (∀ s : State, 44 ≤ s.olen → s.olen - 8 < 2 ^ 32 → s.par.ocap < 44 → exec .backfill s = .fault .omemOutOfRange)

/-- What a code leaves unchanged (41_adpcm_decoder.md R141, R150 to R165; 10_state.md R26): every register but IDX, ACC, CP and
NSAMP, and every element of memory but `WMEM[CP]`. -/
def Obligations.CodesFrame : Prop :=
  ∀ (i : Instr) (s t : State), isCode i = true → exec i s = .next t →
    HostSideAsBefore s t ∧ MetadataAsBefore s t ∧ t.phase = s.phase ∧ t.err = s.err ∧ t.errinfo = s.errinfo
    ∧ t.olen = s.olen ∧ t.sp = s.sp
    ∧ (∀ a, t.imemAt a = s.imemAt a) ∧ (∀ a, t.omemAt a = s.omemAt a)
    ∧ (∀ a, a ≠ s.cp → t.wmemAt a = s.wmemAt a) ∧ t.wmemAt s.cp = t.acc

/-- 40_step_table.md R123 and the transition table of R125: the cursor saturates, never wraps, and stays inside the table;
the sign bit does not count. -/
def Obligations.CursorSaturates : Prop :=
  ∀ (s t : State) (c : Code), exec (decodeCode c) s = .next t →
    t.idx < s.cfg.profile.length
    ∧ (c.toNat % 8 ≤ 3 → t.idx = s.idx - 1)
    ∧ (c.toNat % 8 = 4 → t.idx = if s.idx + 3 ≤ s.cfg.profile.length then s.idx + 2 else s.cfg.profile.length - 1)
    ∧ (c.toNat % 8 = 5 → t.idx = if s.idx + 5 ≤ s.cfg.profile.length then s.idx + 4 else s.cfg.profile.length - 1)
    ∧ (c.toNat % 8 = 6 → t.idx = if s.idx + 7 ≤ s.cfg.profile.length then s.idx + 6 else s.cfg.profile.length - 1)
    ∧ (c.toNat % 8 = 7 → t.idx = if s.idx + 9 ≤ s.cfg.profile.length then s.idx + 8 else s.cfg.profile.length - 1)
    ∧ (∀ u, exec (decodeCode (c ^^^ 0x8#4)) s = .next u → u.idx = t.idx)

/-- 40_step_table.md R121, R123: every code moves the cursor by the table's entry for its low three bits, saturating at the
bounds of the table in use; the sign bit and the profile do not change the entry. -/
def Obligations.AdjustmentTable : Prop :=
  (List.range 8).map adjust = [-1, -1, -1, -1, 2, 4, 6, 8]
  ∧ ∀ (c : Code) (s t : State), exec (decodeCode c) s = .next t →
      t.idx = (max 0 (min ((s.idx : Int) + ([-1, -1, -1, -1, 2, 4, 6, 8] : List Int).getD (c.toNat % 8) 0)
                ((match s.cfg.profile with | .short => 16 | .full => 89) - 1))).toNat
      ∧ t.idx = advance s.cfg.profile.length s.idx c

/-- 41_adpcm_decoder.md R143: the difference a code adds is `difference`, a sum of shifted copies of the step size with the
sign applied last, and these are its bounds. -/
def Obligations.DifferenceBounds : Prop :=
  (∀ (c : Code) (s : State) (t : Nat), CodeDefined s → StepIs s t →
    exec (decodeCode c) s = .next (afterCode (difference t c) (advance s.cfg.profile.length s.idx c) s))
  ∧ ∀ (t : Nat) (c : Code),
    t >>> 3 ≤ magnitude t c
    ∧ magnitude t c ≤ t + (t >>> 1) + (t >>> 2) + (t >>> 3)
    ∧ (0 < t → t + (t >>> 1) + (t >>> 2) + (t >>> 3) < 2 * t)
    ∧ (t = 0 → magnitude t c = 0)
    ∧ magnitude t c = magnitude t (c ^^^ 0x8#4)
    ∧ difference t (c ^^^ 0x8#4) = -difference t c

/-- 41_adpcm_decoder.md R140, R144 (d), 10_state.md R22: the sample a code writes is in the range of the precision whatever
the accumulator held. A sum above the range gives its top, below it its bottom. -/
def Obligations.CodeSampleInRange : Prop :=
  ∀ (i : Instr) (s t : State), isCode i = true → exec i s = .next t →
    -(2 ^ (s.prec - 1)) ≤ t.acc ∧ t.acc ≤ 2 ^ (s.prec - 1) - 1 ∧ -32768 ≤ t.acc ∧ t.acc ≤ 32767
    ∧ Memory.look t.wmem s.cp = some t.acc ∧ t.nsamp = s.nsamp + 1 ∧ t.cp = s.cp + 1

/-- 41_adpcm_decoder.md R142: `n` steps of the block in phase DECODE, from any point of a run, emit the waveform of the next
`n` codes as the recurrence gives it from the accumulator and the cursor there, one sample a code, and leave its
accumulator and cursor. From the 0 and 0 of a fresh stream: `ConversionOutput`. -/
def Obligations.WaveformFollowsRecurrence : Prop :=
  ∀ (s : State) (n : Nat), BlockInv s → s.phase = .decode → s.agenda = [] → (s.cp : Int) + n ≤ s.codeCount →
    ∃ t, runFor n s = .next t
      ∧ t.wmemSamples s.cp n
          = decodeFrom s.par s.cfg.profile s.prec s.acc s.idx
              (((unpackCodes s.cfg.nibord (s.imemBytes s.poff (s.ilen - s.poff))).drop s.cp).take n)
      ∧ (t.acc, t.idx)
          = decodeEnd s.par s.cfg.profile s.prec s.acc s.idx
              (((unpackCodes s.cfg.nibord (s.imemBytes s.poff (s.ilen - s.poff))).drop s.cp).take n)
      ∧ t.cp = s.cp + n ∧ t.nsamp = s.nsamp + n ∧ t.phase = .decode
      ∧ (∀ a, a < s.cp → t.wmemAt a = s.wmemAt a)

/-! ## The front end -/

/-- 42_cmp_source.md R180. -/
def Obligations.CfgchkResult : Prop :=
  ∀ s : State,
    ((s.bps = 0 ∨ 4 < s.bps) →
      exec .cfgchk s = .next { s with err := .cfgBps, errinfo := s.bps, olen := 0, phase := .error })
    ∧ (1 ≤ s.bps → s.bps ≤ 4 → s.par.icap < s.ilen →
      exec .cfgchk s = .next { s with err := .cfgIlen, errinfo := s.ilen, olen := 0, phase := .error })
    ∧ (1 ≤ s.bps → s.bps ≤ 4 → s.ilen ≤ s.par.icap → s.cfg.variant = .header →
      exec .cfgchk s = .next { s with phase := .sigchk })
    ∧ (1 ≤ s.bps → s.bps ≤ 4 → s.ilen ≤ s.par.icap → s.cfg.variant = .headerless →
      exec .cfgchk s = .next { s with rate := 22500, prec := 12, paysize := 0, poff := 0, phase := .decode })

/-- 42_cmp_source.md R181. -/
def Obligations.SigchkResult : Prop :=
  ∀ s : State,
    (s.ilen < 4 →
      exec .sigchk s = .next { s with err := .fmtTruncHeader, errinfo := s.ilen, olen := 0, phase := .error })
    ∧ (4 ≤ s.ilen → 4 ≤ s.par.icap →
      [s.imemAt 0, s.imemAt 1, s.imemAt 2, s.imemAt 3] ≠ s.par.sigExpected.toList →
      exec .sigchk s = .next { s with
        err := .fmtSignature
        errinfo := (s.imemAt 0).toNat + 256 * (s.imemAt 1).toNat + 65536 * (s.imemAt 2).toNat
          + 16777216 * (s.imemAt 3).toNat
        olen := 0
        phase := .error })
    ∧ (4 ≤ s.ilen → 4 ≤ s.par.icap →
      [s.imemAt 0, s.imemAt 1, s.imemAt 2, s.imemAt 3] = s.par.sigExpected.toList →
      exec .sigchk s = .next { s with phase := .hdrparse })

/-- 42_cmp_source.md R182, with `size`, `rate` and `prec` the fields of the header and the checks in their order. -/
def Obligations.HdrparseResult : Prop :=
  ∀ (s : State) (size rate prec : Nat),
    size = (s.imemAt 4).toNat + 256 * (s.imemAt 5).toNat + 65536 * (s.imemAt 6).toNat + 16777216 * (s.imemAt 7).toNat →
    rate = (s.imemAt 8).toNat + 256 * (s.imemAt 9).toNat + 65536 * (s.imemAt 10).toNat
      + 16777216 * (s.imemAt 11).toNat →
    prec = (s.imemAt 12).toNat + 256 * (s.imemAt 13).toNat →
    (s.ilen < 14 →
      exec .hdrparse s = .next { s with err := .fmtTruncHeader, errinfo := s.ilen, olen := 0, phase := .error })
    ∧ (14 ≤ s.ilen → 14 ≤ s.par.icap → prec ≠ 16 →
      exec .hdrparse s = .next { s with err := .fmtPrecision, errinfo := prec, olen := 0, phase := .error })
    ∧ (14 ≤ s.ilen → 14 ≤ s.par.icap → prec = 16 → s.par.checkPaysize = true → s.ilen - 14 < size →
      exec .hdrparse s = .next { s with err := .fmtTruncPayload, errinfo := s.ilen - 14, olen := 0, phase := .error })
    ∧ (14 ≤ s.ilen → 14 ≤ s.par.icap → prec = 16 → ¬ (s.par.checkPaysize = true ∧ s.ilen - 14 < size) →
      2 ^ 32 ≤ rate * s.bps →
      exec .hdrparse s = .next { s with err := .fmtRange, errinfo := rate, olen := 0, phase := .error })
    ∧ (14 ≤ s.ilen → 14 ≤ s.par.icap → prec = 16 → ¬ (s.par.checkPaysize = true ∧ s.ilen - 14 < size) →
      rate * s.bps < 2 ^ 32 →
      exec .hdrparse s = .next { s with paysize := size, rate := rate, prec := prec, poff := 14, phase := .decode })

/-- 42_cmp_source.md R184: DECODE ends at the last code, and otherwise executes the code at `CP`, which it fetches from
`IMEM[POFF + CP div 2]`; PHASE stays. -/
def Obligations.DecodeResult : Prop :=
  ∀ s : State,
    ((s.cp : Int) = 2 * ((s.ilen : Int) - s.poff) → exec .decode s = .next { s with phase := .wavhdr })
    ∧ ((s.cp : Int) < 2 * ((s.ilen : Int) - s.poff) → s.poff + s.cp / 2 < s.par.icap → CodeDefined s →
        ∃ u, exec .decode s = .next u
          ∧ exec (decodeCode (nib s.cfg.nibord (s.imemAt (s.poff + s.cp / 2)) (s.cp % 2))) s = .next u
          ∧ u.phase = s.phase ∧ u.cp = s.cp + 1)

/-- 42_cmp_source.md R185: which nibble plays when, and low nibble first after reset. -/
def Obligations.NibbleSelection : Prop :=
  (∀ b : Byte,
    (nib .lowFirst b 0).toNat = b.toNat % 16 ∧ (nib .lowFirst b 1).toNat = b.toNat / 16
    ∧ (nib .highFirst b 0).toNat = b.toNat / 16 ∧ (nib .highFirst b 1).toNat = b.toNat % 16)
  ∧ State.reset.cfg.nibord = .lowFirst

/-- 20_memory.md R66, 30_encoding.md R104, 42_cmp_source.md R182: the fields of a header written as `HDR size, rate, 16` are
what HDRPARSE latches; the payload size field is kept and not otherwise used unless it is checked (R183). -/
def Obligations.HeaderFieldsReadBack : Prop :=
  ∀ (s : State) (size rate : Nat), size < 2 ^ 32 → rate < 2 ^ 32 → 14 ≤ s.ilen → 14 ≤ s.par.icap →
    s.imemBytes 0 14 = cmpHeader s.par.sigExpected size rate 16 → rate * s.bps < 2 ^ 32 →
    (s.par.checkPaysize = true → size ≤ s.ilen - 14) →
    exec .sigchk s = .next { s with phase := .hdrparse }
    ∧ exec .hdrparse s = .next { s with paysize := size, rate := rate, prec := 16, poff := 14, phase := .decode }

/-- What the front end leaves unchanged (42_cmp_source.md R180 to R184, 20_memory.md R69): CFGCHK, SIGCHK and HDRPARSE write no
memory and no register of the decoder; DECODE writes at most `WMEM[CP]`. -/
def Obligations.FrontFrame : Prop :=
  (∀ (i : Instr) (s t : State), i = .cfgchk ∨ i = .sigchk ∨ i = .hdrparse → exec i s = .next t →
    MemoriesAsBefore s t ∧ HostSideAsBefore s t ∧ DecoderAsBefore s t ∧ t.sp = s.sp
    ∧ (i = .sigchk → MetadataAsBefore s t)
    ∧ (t.phase = .error → MetadataAsBefore s t)
    ∧ (t.phase ≠ .error → t.olen = s.olen ∧ t.err = s.err ∧ t.errinfo = s.errinfo))
  ∧ (∀ s t : State, exec .decode s = .next t →
    HostSideAsBefore s t ∧ MetadataAsBefore s t ∧ t.err = s.err ∧ t.errinfo = s.errinfo ∧ t.olen = s.olen
    ∧ t.sp = s.sp ∧ (∀ a, t.imemAt a = s.imemAt a) ∧ (∀ a, t.omemAt a = s.omemAt a)
    ∧ (∀ a, a ≠ s.cp → t.wmemAt a = s.wmemAt a)
    ∧ (t.phase ≠ s.phase → DecoderAsBefore s t ∧ MemoriesAsBefore s t))

/-! ## The normalizer -/

/-- 43_pcm_normalizer.md R200: `NORM` is the quotient of `W*(2*uc - U)` by `2*U`, truncated toward zero. -/
def Obligations.NormFormula : Prop :=
  ∀ (x : Int) (i b : Nat), 1 ≤ i → 1 ≤ b →
    pcmNorm x i b =
      Int.tdiv ((2 ^ (8 * b) - 1) * (2 * max 0 (min (x + 2 ^ (i - 1)) (2 ^ i - 1)) - (2 ^ i - 1))) (2 * (2 ^ i - 1))

/-- 43_pcm_normalizer.md R203: range, extremes and symmetry of `NORM`, and what silence becomes. Its "exactly when" is true of
the value before truncation only, and is stated in the direction that holds (log 27). -/
def Obligations.NormRangeSymmetry : Prop :=
  (∀ (x : Int) (i b : Nat), 1 ≤ i → 1 ≤ b →
    -(2 ^ (8 * b - 1) - 1) ≤ pcmNorm x i b ∧ pcmNorm x i b ≤ 2 ^ (8 * b - 1) - 1
    ∧ (x ≤ -(2 ^ (i - 1)) → pcmNorm x i b = -(2 ^ (8 * b - 1) - 1))
    ∧ (2 ^ (i - 1) - 1 ≤ x → pcmNorm x i b = 2 ^ (8 * b - 1) - 1)
    ∧ pcmNorm (-1 - x) i b = -pcmNorm x i b)
  ∧ pcmNorm 0 12 2 = 8 ∧ pcmNorm 0 12 3 = 2048 ∧ pcmNorm 0 16 2 = 0

/-- 43_pcm_normalizer.md R204: `NORM` is monotone, and not strictly. -/
def Obligations.NormMonotone : Prop :=
  (∀ (x y : Int) (i b : Nat), 1 ≤ i → 1 ≤ b → y < x → pcmNorm y i b ≤ pcmNorm x i b)
  ∧ pcmNorm (-1) 16 2 = 0 ∧ pcmNorm 0 16 2 = 0
  ∧ (∀ x : Int, -16 ≤ x → x ≤ 15 → pcmNorm x 12 1 = 0)

/-- 43_pcm_normalizer.md R205: inside the block the normalizer's clamp never changes a value. -/
def Obligations.NormClampIdleInRuns : Prop :=
  ∀ s : State, BlockInv s → s.phase = .wavdata → s.sp < s.nsamp →
    0 ≤ s.wmemAt s.sp + 2 ^ (s.prec - 1) ∧ s.wmemAt s.sp + 2 ^ (s.prec - 1) ≤ 2 ^ s.prec - 1

/-! ## The serializer -/

/-- 44_wav_sink.md R222: the capacity check, and the 44 header bytes as listed. -/
def Obligations.WavhdrResult : Prop :=
  ∀ s : State,
    (s.par.ocap < 44 + s.nsamp * s.bps →
      exec .wavhdr s = .next { s with err := .ioFull, errinfo := s.nsamp, olen := 0, phase := .error })
    ∧ (44 + s.nsamp * s.bps ≤ s.par.ocap → s.rate < 2 ^ 32 → s.rate * s.bps < 2 ^ 32 →
      exec .wavhdr s = .next { s with
        omem := Memory.putAll s.omem 0
          ([0x52#8, 0x49#8, 0x46#8, 0x46#8, 0x00#8, 0x00#8, 0x00#8, 0x00#8, 0x57#8, 0x41#8, 0x56#8, 0x45#8,
            0x66#8, 0x6D#8, 0x74#8, 0x20#8, 0x10#8, 0x00#8, 0x00#8, 0x00#8, 0x01#8, 0x00#8, 0x01#8, 0x00#8]
            ++ le 4 s.rate ++ le 4 (s.rate * s.bps) ++ le 2 s.bps ++ le 2 (8 * s.bps)
            ++ [0x64#8, 0x61#8, 0x74#8, 0x61#8, 0x00#8, 0x00#8, 0x00#8, 0x00#8])
        olen := 44
        sp := 0
        phase := .wavdata })

/-- 44_wav_sink.md R224: one sample normalized and written in `B` bytes of two's complement, or the end of the payload. -/
def Obligations.WavdataResult : Prop :=
  ∀ s : State,
    (s.sp = s.nsamp → exec .wavdata s = .next { s with phase := .backfill })
    ∧ (s.sp < s.nsamp → 1 ≤ s.prec → s.prec ≤ 16 → 1 ≤ s.bps → s.olen + s.bps ≤ s.par.ocap →
      exec .wavdata s = .next { s with
        omem := Memory.putAll s.omem s.olen
          (le s.bps ((pcmNorm (s.wmemAt s.sp) s.prec s.bps) % 2 ^ (8 * s.bps)).toNat)
        olen := s.olen + s.bps
        sp := s.sp + 1 })

/-- 44_wav_sink.md R225: both size fields, then DONE. -/
def Obligations.BackfillResult : Prop :=
  ∀ s : State, 44 ≤ s.olen → s.olen - 8 < 2 ^ 32 → 44 ≤ s.par.ocap →
    exec .backfill s = .next { s with
      omem := Memory.putAll (Memory.putAll s.omem 4 (le 4 (s.olen - 8))) 40 (le 4 (s.olen - 44))
      phase := .done }

/-- What the serializer leaves unchanged (44_wav_sink.md R222, R224, R225): no register but OLEN, SP, PHASE and, in an error,
ERR and ERRINFO, and no element of memory outside the bytes stored: 44 at 0, or `BPS` at `OLEN`, or the two size fields. -/
def Obligations.SinkFrame : Prop :=
  (∀ (i : Instr) (s t : State), i = .wavhdr ∨ i = .wavdata ∨ i = .backfill → exec i s = .next t →
    HostSideAsBefore s t ∧ MetadataAsBefore s t ∧ DecoderAsBefore s t
    ∧ (i ≠ .wavhdr → t.err = s.err ∧ t.errinfo = s.errinfo)
    ∧ (∀ a, t.imemAt a = s.imemAt a) ∧ (∀ a, t.wmemAt a = s.wmemAt a))
  ∧ (∀ s t : State, exec .wavhdr s = .next t →
      (∀ a, 44 ≤ a → t.omemAt a = s.omemAt a)
      ∧ (t.phase = .error → (∀ a, t.omemAt a = s.omemAt a) ∧ t.sp = s.sp)
      ∧ (t.phase ≠ .error → t.err = s.err ∧ t.errinfo = s.errinfo))
  ∧ (∀ s t : State, exec .wavdata s = .next t →
      (∀ a, a < s.olen ∨ s.olen + s.bps ≤ a → t.omemAt a = s.omemAt a)
      ∧ (s.sp = s.nsamp → (∀ a, t.omemAt a = s.omemAt a) ∧ t.olen = s.olen ∧ t.sp = s.sp)
      ∧ (s.sp ≠ s.nsamp → t.phase = s.phase))
  ∧ (∀ s t : State, exec .backfill s = .next t →
      t.olen = s.olen ∧ t.sp = s.sp ∧ ∀ a, a < 4 ∨ (8 ≤ a ∧ a < 40) ∨ 44 ≤ a → t.omemAt a = s.omemAt a)

/-- 30_encoding.md R96: the bytes of a sample are `B` many and read back, as two's complement, to the normalized sample. -/
def Obligations.SampleBytesReadBack : Prop :=
  ∀ (x : Int) (i b : Nat), 1 ≤ i → 1 ≤ b →
    (sampleBytes x i b).length = b
    ∧ pcmNorm x i b =
        if leVal (sampleBytes x i b) < 2 ^ (8 * b - 1) then (leVal (sampleBytes x i b) : Int)
        else (leVal (sampleBytes x i b) : Int) - 2 ^ (8 * b)

/-- 44_wav_sink.md R226: what BACKFILL leaves in a run is a finished export, its size fields the true counts. -/
def Obligations.FinishedExportSizes : Prop :=
  ∀ s : State, BlockInv s → s.phase = .backfill →
    ∃ t, exec .backfill s = .next t ∧ t.phase = .done ∧ t.olen = 44 + t.nsamp * t.bps
      ∧ leVal (t.omemBytes 4 4) = t.olen - 8 ∧ leVal (t.omemBytes 4 4) = 36 + t.nsamp * t.bps
      ∧ leVal (t.omemBytes 40 4) = t.olen - 44 ∧ leVal (t.omemBytes 40 4) = t.nsamp * t.bps

/-! ## Whole runs -/

/-- The whole conversion (44_wav_sink.md R228, 41_adpcm_decoder.md R142, 70_reset_and_hazards.md R318, R319): a run that no
check stops ends in DONE with the waveform of the file's codes in WMEM and the closed-form WAV file in OMEM. -/
def Obligations.ConversionOutput : Prop :=
  ∀ s : State, BlockInv s → s.busy = false → s.agenda = [.outside (.writeReg 0 1#32)] → verdict s = none →
    ∃ t, runFor (1 + runLength s) s = .next t ∧ t.phase = .done
      ∧ t.rate = s.fileRate ∧ t.prec = s.filePrec ∧ t.poff = s.payloadStart
      ∧ t.nsamp = s.fileCodes ∧ t.cp = s.fileCodes ∧ t.sp = s.fileCodes
      ∧ t.wmemSamples 0 t.nsamp = decodeFrom s.par s.cfg.profile s.filePrec 0 0 s.fileStream
      ∧ (t.acc, t.idx) = decodeEnd s.par s.cfg.profile s.filePrec 0 0 s.fileStream
      ∧ t.omemBytes 0 t.olen
          = wavFile (decodeFrom s.par s.cfg.profile s.filePrec 0 0 s.fileStream) s.fileRate s.filePrec s.bps
      ∧ t.olen = 44 + s.fileCodes * s.bps

/-- 60_exceptions.md R285, R272 and 70_reset_and_hazards.md R319: every run ends, after exactly the steps the spec counts,
busy until then; in the error of the first cause met with its information word, or in DONE. -/
def Obligations.RunEndsAsTheChecksSay : Prop :=
  ∀ s : State, BlockInv s → s.busy = false → s.agenda = [.outside (.writeReg 0 1#32)] →
    (∀ k, k < runLength s → ∃ t, runFor (1 + k) s = .next t ∧ t.busy = true)
    ∧ ∃ t, runFor (1 + runLength s) s = .next t
        ∧ (∀ e info, verdict s = some (e, info) →
            t.phase = .error ∧ t.err = e ∧ t.errinfo = info ∧ t.olen = 0)
        ∧ (verdict s = none → t.phase = .done ∧ t.err = .none ∧ t.errinfo = 0)

/-- 70_reset_and_hazards.md R320, R321, 40_step_table.md R126: two blocks with the same parameters, configuration, length and
file, whatever their pasts, agree at every step of the run in every register and in the valid part of every memory. -/
def Obligations.RunsForgetTheirPast : Prop :=
  ∀ s t : State, BlockInv s → BlockInv t → s.busy = false → t.busy = false → SameInputs s t →
    s.agenda = [.outside (.writeReg 0 1#32)] → t.agenda = [.outside (.writeReg 0 1#32)] →
    ∀ k, ∃ s' t', runFor (1 + k) s = .next s' ∧ runFor (1 + k) t = .next t' ∧ SameRun s' t'

/-! ## Commands -/

/-- 45_host_commands.md R250. -/
def Obligations.StartResult : Prop :=
  ∀ s : State,
    (s.phase = .idle ∨ s.phase = .done ∨ s.phase = .error →
      exec .start s = .next { s with
        idx := 0, acc := 0, cp := 0, sp := 0, nsamp := 0, olen := 0, rate := 0, prec := 0, paysize := 0, poff := 0,
        err := .none, errinfo := 0, phase := .cfgchk })
    ∧ (s.phase ≠ .idle → s.phase ≠ .done → s.phase ≠ .error → exec .start s = .next s)
    ∧ encode .start = .command 0x00000001#32

/-- 45_host_commands.md R251. -/
def Obligations.ClearResult : Prop :=
  ∀ s : State,
    (s.phase = .idle ∨ s.phase = .done ∨ s.phase = .error →
      exec .clear s = .next { s with
        idx := 0, acc := 0, cp := 0, sp := 0, nsamp := 0, olen := 0, rate := 0, prec := 0, paysize := 0, poff := 0,
        err := .none, errinfo := 0, phase := .idle })
    ∧ (s.phase ≠ .idle → s.phase ≠ .done → s.phase ≠ .error → exec .clear s = .next s)
    ∧ encode .clear = .command 0x00000002#32

/-- What the commands leave unchanged (45_host_commands.md R250, R251): CFG, ILEN and every element of every memory. -/
def Obligations.CommandsFrame : Prop :=
  ∀ (i : Instr) (s t : State), i = .start ∨ i = .clear → exec i s = .next t →
    MemoriesAsBefore s t ∧ HostSideAsBefore s t

/-! ## Errors -/

/-- 60_exceptions.md R273: an instruction that goes to ERROR makes four writes and no other. -/
def Obligations.ErrorEntry : Prop :=
  ∀ (i : Instr) (s t : State), exec i s = .next t → s.phase ≠ .error → t.phase = .error →
    (i = .cfgchk ∨ i = .sigchk ∨ i = .hdrparse ∨ i = .wavhdr) ∧ t.err ≠ .none
    ∧ t = { s with err := t.err, errinfo := t.errinfo, olen := 0, phase := .error }

/-- 60_exceptions.md R271, R272: which instruction raises what, why, under which number, and the information word. -/
def Obligations.ErrorInformation : Prop :=
  (∀ (i : Instr) (s t : State), exec i s = .next t → s.phase ≠ .error → t.phase = .error →
    (t.err = .fmtSignature ∧ i = .sigchk ∧ 4 ≤ s.ilen ∧ s.imemBytes 0 4 ≠ s.par.sigExpected.toList
        ∧ t.errinfo = leVal (s.imemBytes 0 4))
    ∨ (t.err = .fmtPrecision ∧ i = .hdrparse ∧ leVal (s.imemBytes 12 2) ≠ 16 ∧ t.errinfo = leVal (s.imemBytes 12 2))
    ∨ (t.err = .fmtTruncHeader ∧ (i = .sigchk ∧ s.ilen < 4 ∨ i = .hdrparse ∧ s.ilen < 14) ∧ t.errinfo = s.ilen)
    ∨ (t.err = .fmtTruncPayload ∧ i = .hdrparse ∧ s.par.checkPaysize = true ∧ s.ilen - 14 < leVal (s.imemBytes 4 4)
        ∧ t.errinfo = s.ilen - 14)
    ∨ (t.err = .fmtRange ∧ i = .hdrparse ∧ 2 ^ 32 ≤ leVal (s.imemBytes 8 4) * s.bps
        ∧ t.errinfo = leVal (s.imemBytes 8 4))
    ∨ (t.err = .cfgBps ∧ i = .cfgchk ∧ (s.bps = 0 ∨ 4 < s.bps) ∧ t.errinfo = s.bps)
    ∨ (t.err = .cfgIlen ∧ i = .cfgchk ∧ s.par.icap < s.ilen ∧ t.errinfo = s.ilen)
    ∨ (t.err = .ioFull ∧ i = .wavhdr ∧ s.par.ocap < 44 + s.nsamp * s.bps ∧ t.errinfo = s.nsamp))
  ∧ Err.none.number = 0#4 ∧ Err.fmtSignature.number = 1#4 ∧ Err.fmtPrecision.number = 2#4
  ∧ Err.fmtTruncHeader.number = 3#4 ∧ Err.fmtTruncPayload.number = 4#4 ∧ Err.fmtRange.number = 5#4
  ∧ Err.cfgBps.number = 6#4 ∧ Err.cfgIlen.number = 7#4 ∧ Err.ioFull.number = 8#4

/-- 60_exceptions.md R286, R290, 70_reset_and_hazards.md R318: IDLE, DONE and ERROR are left only by a START or CLEAR the host
writes, or by reset; in them the block's turn changes nothing but the agenda. -/
def Obligations.StoppedPhasesHold : Prop :=
  ∀ s t : State, s.busy = false → step s = .next t →
    (s.blockMoves = true → t = s.popTurn)
    ∧ (t.phase ≠ s.phase →
        ∃ rest, s.agenda = .outside (.writeReg 0 1#32) :: rest ∨ s.agenda = .outside (.writeReg 0 2#32) :: rest
          ∨ s.agenda = .outside .reset :: rest)

/-! ## Registers and memories as the host sees them -/

/-- 10_state.md R27, R28, R29, R32, 45_host_commands.md R252: what a host read of register `n` returns, and that it changes
nothing. While the block is busy the registers that move read as a value nothing is known of
(93_implementation_defined.md U4; log 8, log 9). -/
def Obligations.RegisterReads : Prop :=
  ∀ (s : State) (n : Nat) (rest : List Turn), s.agenda = .outside (.readReg n) :: rest →
    (s.busy = false ∨ n ≤ 3 ∨ 15 ≤ n → step s = .next { s with
      agenda := rest
      readback := .word
        (([0#32, s.cfg.toWord, BitVec.ofNat 32 s.ilen,
           BitVec.ofNat 32 (s.phase.number.toNat + 256 * s.err.number.toNat + (if s.busy then 4096 else 0)),
           BitVec.ofNat 32 s.errinfo, BitVec.ofNat 32 s.nsamp, BitVec.ofNat 32 s.olen, BitVec.ofNat 32 s.rate,
           BitVec.ofNat 32 s.prec, BitVec.ofNat 32 s.paysize, BitVec.ofNat 32 s.poff, BitVec.ofNat 32 s.idx,
           BitVec.ofInt 32 s.acc, BitVec.ofNat 32 s.cp, BitVec.ofNat 32 s.sp] : List Word).getD n 0#32) })
    ∧ (s.busy = true → 4 ≤ n → n ≤ 14 → step s = .next { s with
      agenda := rest, readback := .word (Config.anyWord s.draws), draws := s.draws + 1 })

/-- 10_state.md R32: the fields of STATUS. -/
def Obligations.StatusLayout : Prop :=
  ∀ s : State,
    s.statusWord.extractLsb' 0 4 = s.phase.number ∧ s.statusWord.extractLsb' 4 4 = 0#4
    ∧ s.statusWord.extractLsb' 8 4 = s.err.number ∧ s.statusWord.getLsbD 12 = s.busy
    ∧ s.statusWord.extractLsb' 13 19 = 0#19
    ∧ (s.busy = true ↔ 1 ≤ s.phase.number.toNat ∧ s.phase.number.toNat ≤ 7)

/-- 10_state.md R29, R30, R31: what a host write to a register other than CMD does when the block is not busy. -/
def Obligations.RegisterWrites : Prop :=
  ∀ (s : State) (n : Nat) (v : Word) (rest : List Turn), s.agenda = .outside (.writeReg n v) :: rest → s.busy = false →
    (n = 1 → step s = .next { s with
        agenda := rest
        cfg := { variant := if v.getLsbD 0 then .header else .headerless
                 profile := if v.getLsbD 1 then .full else .short
                 nibord := if v.getLsbD 2 then .highFirst else .lowFirst
                 bps := v.extractLsb' 4 4 } })
    ∧ (n = 1 → ∃ t, step s = .next t ∧ t.regValue 1 = v &&& 0x000000F7#32)
    ∧ (n = 2 → step s = .next { s with agenda := rest, ilen := v.toNat })
    ∧ (3 ≤ n → step s = .next { s with agenda := rest })

/-- 70_reset_and_hazards.md R316, 10_state.md R27, R28: while the block is busy every register write is ignored, START and CLEAR
among them, and a write to IMEM is refused by name (93_implementation_defined.md U2). -/
def Obligations.BusyBlockIgnoresWrites : Prop :=
  ∀ (s : State) (rest : List Turn), s.busy = true →
    (∀ n v, s.agenda = .outside (.writeReg n v) :: rest → step s = .next { s with agenda := rest })
    ∧ (∀ i b, s.agenda = .outside (.writeImem i b) :: rest → step s = .refused .imemWriteWhileBusy)

/-- 20_memory.md R69, 45_host_commands.md R252: no host read has a side effect on the block, busy or not. -/
def Obligations.HostReadsChangeNothing : Prop :=
  ∀ (s t : State) (a : Outside) (rest : List Turn), s.agenda = .outside a :: rest →
    (∃ n, a = .readReg n) ∨ (∃ i, a = .readWmem i) ∨ (∃ i, a = .readOmem i) → step s = .next t →
    t = { s with agenda := rest, readback := t.readback, draws := t.draws }

/-- 20_memory.md R61: a host write to IMEM. Beyond the memory there is no element (log 11). -/
def Obligations.ImemWrite : Prop :=
  ∀ (s : State) (i : Nat) (b : Byte) (rest : List Turn), s.agenda = .outside (.writeImem i b) :: rest → s.busy = false →
    (i < s.par.icap → ∃ t, step s = .next t ∧ t = { s with agenda := rest, imem := t.imem } ∧ t.imemAt i = b
      ∧ ∀ a, a ≠ i → t.imemAt a = s.imemAt a)
    ∧ (s.par.icap ≤ i → step s = .fault .noSuchElement)

/-- 20_memory.md R62, R63: what the host reads of WMEM below NSAMP when the block is not busy, and of OMEM below OLEN in DONE;
elsewhere inside the memory a value nothing is known of (93_implementation_defined.md U3, U4; log 8, log 19). -/
def Obligations.HostMemoryReads : Prop :=
  ∀ (s : State) (i : Nat) (rest : List Turn),
    (s.agenda = .outside (.readWmem i) :: rest → i < s.par.wcap →
      (s.busy = false → i < s.nsamp → step s = .next { s with agenda := rest, readback := .sample (s.wmemAt i) })
      ∧ (s.busy = true ∨ s.nsamp ≤ i → step s = .next { s with
          agenda := rest, readback := .sample (Config.anySample s.draws).toInt, draws := s.draws + 1 }))
    ∧ (s.agenda = .outside (.readOmem i) :: rest → i < s.par.ocap →
      (s.phase = .done → i < s.olen → step s = .next { s with agenda := rest, readback := .byte (s.omemAt i) })
      ∧ (s.phase ≠ .done ∨ s.olen ≤ i → step s = .next { s with
          agenda := rest, readback := .byte (Config.anyByte s.draws), draws := s.draws + 1 }))

/-- 70_reset_and_hazards.md R310, 10_state.md R44: every register and the parameters after reset from any state. The model's
own choices, no rule of the spec: that no element of a memory is listed, its form of unspecified contents (log 7), and that
the rest of the agenda stays (log 17). -/
def Obligations.ResetEvent : Prop :=
  ∀ (s : State) (rest : List Turn), s.agenda = .outside .reset :: rest →
    ∃ t, step s = .next t ∧ t.phase = .idle ∧ t.err = .none ∧ t.errinfo = 0 ∧ t.idx = 0 ∧ t.acc = 0 ∧ t.cp = 0 ∧ t.sp = 0
      ∧ t.nsamp = 0 ∧ t.olen = 0 ∧ t.rate = 0 ∧ t.prec = 0 ∧ t.paysize = 0 ∧ t.poff = 0 ∧ t.ilen = 0
      ∧ t.cfg = { variant := .headerless, profile := .short, nibord := .lowFirst, bps := 0#4 }
      ∧ (∀ a, Memory.look t.imem a = none) ∧ (∀ a, Memory.look t.wmem a = none) ∧ (∀ a, Memory.look t.omem a = none)
      ∧ t.par = s.par ∧ t.agenda = rest

/-! ## Invariants and whole-machine rules -/

/-- The invariant holds after reset of every block whose parameters are legal, the one of `State.reset` among them
(10_state.md R44; whose parameters are the model's choice, log 2). -/
def Obligations.InvHoldsAtReset : Prop :=
  (∀ p : Params, p.wf = true → BlockInv (State.resetOf p)) ∧ BlockInv State.reset

/-- Every step keeps the invariant (10_state.md R21 to R40, 20_memory.md R60 to R63, 40_step_table.md R125, 41_adpcm_decoder.md
R144, 44_wav_sink.md R226): from every state that meets it, whoever's turn it is. -/
def Obligations.StepKeepsInv : Prop :=
  ∀ s t : State, BlockInv s → step s = .next t → BlockInv t

/-- The block never stops with a fault or a refusal (41_adpcm_decoder.md R144, 60_exceptions.md R271, 20_memory.md R61 to R63):
from every state that meets the invariant the block's turn answers a next state. -/
def Obligations.BlockNeverStops : Prop :=
  ∀ s : State, BlockInv s → s.blockMoves = true → ∃ t, step s = .next t ∧ BlockInv t

/-- 10_state.md R30, R31, 20_memory.md R61, R74, 70_reset_and_hazards.md R316: no instruction changes the parameters, the
configuration, the length or a byte of IMEM, so a run is executed with those in force at START. -/
def Obligations.RunConfigurationConstant : Prop :=
  ∀ (i : Instr) (s t : State), exec i s = .next t → HostSideAsBefore s t ∧ t.imem = s.imem

/-- 20_memory.md R62, R63: WMEM is written only by the codes, at `CP`, and only in the DECODE phase; OMEM only by WAVHDR,
WAVDATA and BACKFILL; no other instruction writes a memory. -/
def Obligations.MemoryOwners : Prop :=
  ∀ (i : Instr) (s t : State), exec i s = .next t →
    t.imem = s.imem
    ∧ (t.wmem ≠ s.wmem → (isCode i = true ∨ i = .decode) ∧ ∃ v, t.wmem = Memory.put s.wmem s.cp v)
    ∧ (t.omem ≠ s.omem → i = .wavhdr ∨ i = .wavdata ∨ i = .backfill)

/-- 10_state.md R27 ("written by the block"), R20: which instructions change which register. -/
def Obligations.RegisterOwners : Prop :=
  ∀ (i : Instr) (s t : State), exec i s = .next t → i ≠ .start → i ≠ .clear →
    (t.idx ≠ s.idx ∨ t.acc ≠ s.acc ∨ t.cp ≠ s.cp ∨ t.nsamp ≠ s.nsamp → isCode i = true ∨ i = .decode)
    ∧ (t.sp ≠ s.sp → i = .wavhdr ∨ i = .wavdata)
    ∧ (t.olen ≠ s.olen → i = .wavhdr ∨ i = .wavdata ∨ t.phase = .error)
    ∧ (t.rate ≠ s.rate ∨ t.prec ≠ s.prec ∨ t.poff ≠ s.poff → i = .cfgchk ∨ i = .hdrparse)
    ∧ (t.paysize ≠ s.paysize → i = .cfgchk ∨ i = .hdrparse)
    ∧ (t.err ≠ s.err ∨ t.errinfo ≠ s.errinfo → t.phase = .error)

/-- 10_state.md R33: the numbers of the phases, and the order in which the block's own steps take them. -/
def Obligations.PhaseOrder : Prop :=
  ([Phase.idle, .cfgchk, .sigchk, .hdrparse, .decode, .wavhdr, .wavdata, .backfill, .done, .error].map
      (fun p => p.number.toNat) = List.range 10)
  ∧ ∀ s t : State, s.blockMoves = true → step s = .next t →
      (s.phase = .idle → t.phase = .idle)
      ∧ (s.phase = .cfgchk →
          t.phase = .error ∨ (s.cfg.variant = .header ∧ t.phase = .sigchk) ∨ (s.cfg.variant = .headerless ∧ t.phase = .decode))
      ∧ (s.phase = .sigchk → t.phase = .error ∨ t.phase = .hdrparse)
      ∧ (s.phase = .hdrparse → t.phase = .error ∨ t.phase = .decode)
      ∧ (s.phase = .decode → t.phase = .decode ∨ t.phase = .wavhdr)
      ∧ (s.phase = .wavhdr → t.phase = .error ∨ t.phase = .wavdata)
      ∧ (s.phase = .wavdata → t.phase = .wavdata ∨ t.phase = .backfill)
      ∧ (s.phase = .backfill → t.phase = .done)
      ∧ (s.phase = .done → t.phase = .done)
      ∧ (s.phase = .error → t.phase = .error)
end

