-- ==== Sys2Proof/Laws/Memory.lean ====
section
/-! SUPPORT. The laws of the sparse memories: a read after a write, the canonical form, the range of the indices. -/

namespace Sys2Proof.Machine.Memory

variable {α : Type}

@[simp] theorem look_nil (i : Nat) : look ([] : Memory α) i = none := rfl

@[simp] theorem look_cons (j : Nat) (w : α) (r : Memory α) (i : Nat) :
    look ((j, w) :: r) i = if i = j then some w else look r i := rfl

/-- Reading the written element gives the value written. -/
@[simp] theorem look_put_same (m : Memory α) (i : Nat) (v : α) : look (put m i v) i = some v := by
  induction m with
  | nil => simp [put]
  | cons c r ih =>
    obtain ⟨j, w⟩ := c
    by_cases h1 : i < j
    · simp [put, h1]
    · by_cases h2 : i = j
      · simp [put, h2]
      · simp [put, h1, h2, ih]

/-- A write leaves every other element alone. -/
theorem look_put_other (m : Memory α) (i k : Nat) (v : α) (h : k ≠ i) : look (put m i v) k = look m k := by
  induction m with
  | nil => simp [put, h]
  | cons c r ih =>
    obtain ⟨j, w⟩ := c
    by_cases h1 : i < j
    · simp [put, h1, h]
    · by_cases h2 : i = j
      · subst h2; simp [put, h]
      · simp [put, h1, h2, ih]

theorem look_put (m : Memory α) (i k : Nat) (v : α) :
    look (put m i v) k = if k = i then some v else look m k := by
  by_cases h : k = i
  · subst h; simp
  · simp [h, look_put_other m i k v h]

/-- What a written run of elements reads as: the run inside, the old memory outside. -/
theorem look_putAll (m : Memory α) (a : Nat) (vs : List α) (k : Nat) :
    look (putAll m a vs) k = if a ≤ k ∧ k < a + vs.length then vs[k - a]? else look m k := by
  induction vs generalizing m a with
  | nil => simp [putAll, show ¬ (a ≤ k ∧ k < a) by omega]
  | cons v vs ih =>
    rw [putAll, ih, look_put]
    by_cases h1 : k = a
    · subst h1; rw [if_neg (by omega), if_pos rfl, if_pos (by simp)]; simp
    · by_cases h2 : a + 1 ≤ k ∧ k < a + 1 + vs.length
      · have h3 : a ≤ k ∧ k < a + (v :: vs).length := by simp; omega
        rw [if_pos h2, if_pos h3]
        obtain ⟨d, hd⟩ : ∃ d, k = a + 1 + d := ⟨k - (a + 1), by omega⟩
        subst hd
        simp [show a + 1 + d - a = d + 1 by omega]
      · have h3 : ¬ (a ≤ k ∧ k < a + (v :: vs).length) := by simp; omega
        rw [if_neg h2, if_neg h3, if_neg h1]

theorem look_putAll_outside (m : Memory α) (a : Nat) (vs : List α) (k : Nat) (h : k < a ∨ a + vs.length ≤ k) :
    look (putAll m a vs) k = look m k := by
  rw [look_putAll, if_neg (by omega)]

/-- The members of a written memory: the new element, and old ones. -/
theorem mem_put (m : Memory α) (i : Nat) (v : α) (c : Nat × α) (h : c ∈ put m i v) : c = (i, v) ∨ c ∈ m := by
  induction m with
  | nil => simpa [put] using h
  | cons d r ih =>
    obtain ⟨j, w⟩ := d
    by_cases h1 : i < j
    · simpa [put, h1] using h
    · by_cases h2 : i = j
      · simp only [put, h2, Nat.lt_irrefl, if_false, if_true, List.mem_cons] at h
        rcases h with h | h
        · left; rw [h, h2]
        · right; simp [h]
      · simp only [put, h1, h2, if_false, List.mem_cons] at h
        rcases h with h | h
        · right; simp [h]
        · rcases ih h with h | h
          · left; exact h
          · right; simp [h]

/-- A write keeps the canonical form. -/
theorem put_wf (m : Memory α) (i : Nat) (v : α) (h : wf m) : wf (put m i v) := by
  induction m with
  | nil => simp [put, wf]
  | cons c r ih =>
    obtain ⟨j, w⟩ := c
    simp only [wf, List.pairwise_cons] at h
    by_cases h1 : i < j
    · simp only [put, h1, if_true, wf, List.pairwise_cons]
      refine ⟨?_, h.1, h.2⟩
      intro b hb
      rcases List.mem_cons.mp hb with hb | hb
      · subst hb; exact h1
      · exact Nat.lt_trans h1 (h.1 b hb)
    · by_cases h2 : i = j
      · subst h2; simp only [put, Nat.lt_irrefl, if_false, if_true, wf, List.pairwise_cons]; exact h
      · simp only [put, h1, h2, if_false, wf, List.pairwise_cons]
        refine ⟨?_, ih h.2⟩
        intro b hb
        rcases mem_put r i v b hb with hb | hb
        · subst hb; show j < i; omega
        · exact h.1 b hb

theorem putAll_wf (m : Memory α) (a : Nat) (vs : List α) (h : wf m) : wf (putAll m a vs) := by
  induction vs generalizing m a with
  | nil => exact h
  | cons v vs ih => exact ih _ _ (put_wf m a v h)

/-- The members of a memory after a run of writes lie in the run or were there before. -/
theorem mem_putAll (m : Memory α) (a : Nat) (vs : List α) (c : Nat × α) (h : c ∈ putAll m a vs) :
    (a ≤ c.1 ∧ c.1 < a + vs.length) ∨ c ∈ m := by
  induction vs generalizing m a with
  | nil => right; exact h
  | cons v vs ih =>
    rcases ih _ _ h with h | h
    · left; simp; omega
    · rcases mem_put m a v c h with h | h
      · left; subst h; simp
      · right; exact h

/-- An element that reads as a value is a member. -/
theorem mem_of_look (m : Memory α) (i : Nat) (v : α) (h : look m i = some v) : (i, v) ∈ m := by
  induction m with
  | nil => simp at h
  | cons c r ih =>
    obtain ⟨j, w⟩ := c
    by_cases h1 : i = j
    · subst h1; simp at h; simp [h]
    · simp [h1] at h; simp [ih h]

/-- The memories after reset have the canonical form (10_state.md R44). -/
theorem resetOf_wf (p : Params) :
    wf (State.resetOf p).imem ∧ wf (State.resetOf p).wmem ∧ wf (State.resetOf p).omem :=
  ⟨.nil, .nil, .nil⟩

end Sys2Proof.Machine.Memory
end

