-- ==== Sys2Proof/Laws/State.lean ====
section
/-! SUPPORT. One lemma for each field of each named update of the state, so that no later proof unfolds the update. -/

namespace Sys2Proof.Machine

/-! ## `raiseError` -/

@[simp] theorem raiseError_par (e : Err) (info : Nat) (s : State) : (raiseError e info s).par = s.par := rfl
@[simp] theorem raiseError_phase (e : Err) (info : Nat) (s : State) : (raiseError e info s).phase = .error := rfl
@[simp] theorem raiseError_err (e : Err) (info : Nat) (s : State) : (raiseError e info s).err = e := rfl
@[simp] theorem raiseError_errinfo (e : Err) (info : Nat) (s : State) : (raiseError e info s).errinfo = info := rfl
@[simp] theorem raiseError_cfg (e : Err) (info : Nat) (s : State) : (raiseError e info s).cfg = s.cfg := rfl
@[simp] theorem raiseError_ilen (e : Err) (info : Nat) (s : State) : (raiseError e info s).ilen = s.ilen := rfl
@[simp] theorem raiseError_nsamp (e : Err) (info : Nat) (s : State) : (raiseError e info s).nsamp = s.nsamp := rfl
@[simp] theorem raiseError_olen (e : Err) (info : Nat) (s : State) : (raiseError e info s).olen = 0 := rfl
@[simp] theorem raiseError_rate (e : Err) (info : Nat) (s : State) : (raiseError e info s).rate = s.rate := rfl
@[simp] theorem raiseError_prec (e : Err) (info : Nat) (s : State) : (raiseError e info s).prec = s.prec := rfl
@[simp] theorem raiseError_paysize (e : Err) (info : Nat) (s : State) : (raiseError e info s).paysize = s.paysize := rfl
@[simp] theorem raiseError_poff (e : Err) (info : Nat) (s : State) : (raiseError e info s).poff = s.poff := rfl
@[simp] theorem raiseError_idx (e : Err) (info : Nat) (s : State) : (raiseError e info s).idx = s.idx := rfl
@[simp] theorem raiseError_acc (e : Err) (info : Nat) (s : State) : (raiseError e info s).acc = s.acc := rfl
@[simp] theorem raiseError_cp (e : Err) (info : Nat) (s : State) : (raiseError e info s).cp = s.cp := rfl
@[simp] theorem raiseError_sp (e : Err) (info : Nat) (s : State) : (raiseError e info s).sp = s.sp := rfl
@[simp] theorem raiseError_imem (e : Err) (info : Nat) (s : State) : (raiseError e info s).imem = s.imem := rfl
@[simp] theorem raiseError_wmem (e : Err) (info : Nat) (s : State) : (raiseError e info s).wmem = s.wmem := rfl
@[simp] theorem raiseError_omem (e : Err) (info : Nat) (s : State) : (raiseError e info s).omem = s.omem := rfl
@[simp] theorem raiseError_agenda (e : Err) (info : Nat) (s : State) : (raiseError e info s).agenda = s.agenda := rfl
@[simp] theorem raiseError_readback (e : Err) (info : Nat) (s : State) : (raiseError e info s).readback = s.readback := rfl
@[simp] theorem raiseError_epoch (e : Err) (info : Nat) (s : State) : (raiseError e info s).epoch = s.epoch := rfl
@[simp] theorem raiseError_draws (e : Err) (info : Nat) (s : State) : (raiseError e info s).draws = s.draws := rfl

/-! ## `clearRun` -/

@[simp] theorem clearRun_par (p : Phase) (s : State) : (clearRun p s).par = s.par := rfl
@[simp] theorem clearRun_phase (p : Phase) (s : State) : (clearRun p s).phase = p := rfl
@[simp] theorem clearRun_err (p : Phase) (s : State) : (clearRun p s).err = .none := rfl
@[simp] theorem clearRun_errinfo (p : Phase) (s : State) : (clearRun p s).errinfo = 0 := rfl
@[simp] theorem clearRun_cfg (p : Phase) (s : State) : (clearRun p s).cfg = s.cfg := rfl
@[simp] theorem clearRun_ilen (p : Phase) (s : State) : (clearRun p s).ilen = s.ilen := rfl
@[simp] theorem clearRun_nsamp (p : Phase) (s : State) : (clearRun p s).nsamp = 0 := rfl
@[simp] theorem clearRun_olen (p : Phase) (s : State) : (clearRun p s).olen = 0 := rfl
@[simp] theorem clearRun_rate (p : Phase) (s : State) : (clearRun p s).rate = 0 := rfl
@[simp] theorem clearRun_prec (p : Phase) (s : State) : (clearRun p s).prec = 0 := rfl
@[simp] theorem clearRun_paysize (p : Phase) (s : State) : (clearRun p s).paysize = 0 := rfl
@[simp] theorem clearRun_poff (p : Phase) (s : State) : (clearRun p s).poff = 0 := rfl
@[simp] theorem clearRun_idx (p : Phase) (s : State) : (clearRun p s).idx = 0 := rfl
@[simp] theorem clearRun_acc (p : Phase) (s : State) : (clearRun p s).acc = 0 := rfl
@[simp] theorem clearRun_cp (p : Phase) (s : State) : (clearRun p s).cp = 0 := rfl
@[simp] theorem clearRun_sp (p : Phase) (s : State) : (clearRun p s).sp = 0 := rfl
@[simp] theorem clearRun_imem (p : Phase) (s : State) : (clearRun p s).imem = s.imem := rfl
@[simp] theorem clearRun_wmem (p : Phase) (s : State) : (clearRun p s).wmem = s.wmem := rfl
@[simp] theorem clearRun_omem (p : Phase) (s : State) : (clearRun p s).omem = s.omem := rfl
@[simp] theorem clearRun_agenda (p : Phase) (s : State) : (clearRun p s).agenda = s.agenda := rfl
@[simp] theorem clearRun_readback (p : Phase) (s : State) : (clearRun p s).readback = s.readback := rfl
@[simp] theorem clearRun_epoch (p : Phase) (s : State) : (clearRun p s).epoch = s.epoch := rfl
@[simp] theorem clearRun_draws (p : Phase) (s : State) : (clearRun p s).draws = s.draws := rfl

/-! ## `resetEvent` -/

@[simp] theorem resetEvent_par (s : State) : (resetEvent s).par = s.par := rfl
@[simp] theorem resetEvent_phase (s : State) : (resetEvent s).phase = .idle := rfl
@[simp] theorem resetEvent_err (s : State) : (resetEvent s).err = .none := rfl
@[simp] theorem resetEvent_errinfo (s : State) : (resetEvent s).errinfo = 0 := rfl
@[simp] theorem resetEvent_cfg (s : State) : (resetEvent s).cfg = Cfg.reset := rfl
@[simp] theorem resetEvent_ilen (s : State) : (resetEvent s).ilen = 0 := rfl
@[simp] theorem resetEvent_nsamp (s : State) : (resetEvent s).nsamp = 0 := rfl
@[simp] theorem resetEvent_olen (s : State) : (resetEvent s).olen = 0 := rfl
@[simp] theorem resetEvent_rate (s : State) : (resetEvent s).rate = 0 := rfl
@[simp] theorem resetEvent_prec (s : State) : (resetEvent s).prec = 0 := rfl
@[simp] theorem resetEvent_paysize (s : State) : (resetEvent s).paysize = 0 := rfl
@[simp] theorem resetEvent_poff (s : State) : (resetEvent s).poff = 0 := rfl
@[simp] theorem resetEvent_idx (s : State) : (resetEvent s).idx = 0 := rfl
@[simp] theorem resetEvent_acc (s : State) : (resetEvent s).acc = 0 := rfl
@[simp] theorem resetEvent_cp (s : State) : (resetEvent s).cp = 0 := rfl
@[simp] theorem resetEvent_sp (s : State) : (resetEvent s).sp = 0 := rfl
@[simp] theorem resetEvent_imem (s : State) : (resetEvent s).imem = [] := rfl
@[simp] theorem resetEvent_wmem (s : State) : (resetEvent s).wmem = [] := rfl
@[simp] theorem resetEvent_omem (s : State) : (resetEvent s).omem = [] := rfl
@[simp] theorem resetEvent_agenda (s : State) : (resetEvent s).agenda = s.agenda := rfl
@[simp] theorem resetEvent_readback (s : State) : (resetEvent s).readback = s.readback := rfl
@[simp] theorem resetEvent_epoch (s : State) : (resetEvent s).epoch = s.epoch + 1 := rfl
@[simp] theorem resetEvent_draws (s : State) : (resetEvent s).draws = s.draws := rfl

/-! ## `popTurn` -/

@[simp] theorem popTurn_par (s : State) : (s.popTurn).par = s.par := rfl
@[simp] theorem popTurn_phase (s : State) : (s.popTurn).phase = s.phase := rfl
@[simp] theorem popTurn_err (s : State) : (s.popTurn).err = s.err := rfl
@[simp] theorem popTurn_errinfo (s : State) : (s.popTurn).errinfo = s.errinfo := rfl
@[simp] theorem popTurn_cfg (s : State) : (s.popTurn).cfg = s.cfg := rfl
@[simp] theorem popTurn_ilen (s : State) : (s.popTurn).ilen = s.ilen := rfl
@[simp] theorem popTurn_nsamp (s : State) : (s.popTurn).nsamp = s.nsamp := rfl
@[simp] theorem popTurn_olen (s : State) : (s.popTurn).olen = s.olen := rfl
@[simp] theorem popTurn_rate (s : State) : (s.popTurn).rate = s.rate := rfl
@[simp] theorem popTurn_prec (s : State) : (s.popTurn).prec = s.prec := rfl
@[simp] theorem popTurn_paysize (s : State) : (s.popTurn).paysize = s.paysize := rfl
@[simp] theorem popTurn_poff (s : State) : (s.popTurn).poff = s.poff := rfl
@[simp] theorem popTurn_idx (s : State) : (s.popTurn).idx = s.idx := rfl
@[simp] theorem popTurn_acc (s : State) : (s.popTurn).acc = s.acc := rfl
@[simp] theorem popTurn_cp (s : State) : (s.popTurn).cp = s.cp := rfl
@[simp] theorem popTurn_sp (s : State) : (s.popTurn).sp = s.sp := rfl
@[simp] theorem popTurn_imem (s : State) : (s.popTurn).imem = s.imem := rfl
@[simp] theorem popTurn_wmem (s : State) : (s.popTurn).wmem = s.wmem := rfl
@[simp] theorem popTurn_omem (s : State) : (s.popTurn).omem = s.omem := rfl
@[simp] theorem popTurn_agenda (s : State) : (s.popTurn).agenda = s.agenda.tail := rfl
@[simp] theorem popTurn_readback (s : State) : (s.popTurn).readback = s.readback := rfl
@[simp] theorem popTurn_epoch (s : State) : (s.popTurn).epoch = s.epoch := rfl
@[simp] theorem popTurn_draws (s : State) : (s.popTurn).draws = s.draws := rfl

/-! ## `afterCode` -/

@[simp] theorem afterCode_par (d : Int) (i : Nat) (s : State) : (afterCode d i s).par = s.par := rfl
@[simp] theorem afterCode_phase (d : Int) (i : Nat) (s : State) : (afterCode d i s).phase = s.phase := rfl
@[simp] theorem afterCode_err (d : Int) (i : Nat) (s : State) : (afterCode d i s).err = s.err := rfl
@[simp] theorem afterCode_errinfo (d : Int) (i : Nat) (s : State) : (afterCode d i s).errinfo = s.errinfo := rfl
@[simp] theorem afterCode_cfg (d : Int) (i : Nat) (s : State) : (afterCode d i s).cfg = s.cfg := rfl
@[simp] theorem afterCode_ilen (d : Int) (i : Nat) (s : State) : (afterCode d i s).ilen = s.ilen := rfl
@[simp] theorem afterCode_nsamp (d : Int) (i : Nat) (s : State) : (afterCode d i s).nsamp = s.nsamp + 1 := rfl
@[simp] theorem afterCode_olen (d : Int) (i : Nat) (s : State) : (afterCode d i s).olen = s.olen := rfl
@[simp] theorem afterCode_rate (d : Int) (i : Nat) (s : State) : (afterCode d i s).rate = s.rate := rfl
@[simp] theorem afterCode_prec (d : Int) (i : Nat) (s : State) : (afterCode d i s).prec = s.prec := rfl
@[simp] theorem afterCode_paysize (d : Int) (i : Nat) (s : State) : (afterCode d i s).paysize = s.paysize := rfl
@[simp] theorem afterCode_poff (d : Int) (i : Nat) (s : State) : (afterCode d i s).poff = s.poff := rfl
@[simp] theorem afterCode_idx (d : Int) (i : Nat) (s : State) : (afterCode d i s).idx = i := rfl
@[simp] theorem afterCode_acc (d : Int) (i : Nat) (s : State) : (afterCode d i s).acc = clampInt (s.acc + d) (-(2 ^ (s.prec - 1))) (2 ^ (s.prec - 1) - 1) := rfl
@[simp] theorem afterCode_cp (d : Int) (i : Nat) (s : State) : (afterCode d i s).cp = s.cp + 1 := rfl
@[simp] theorem afterCode_sp (d : Int) (i : Nat) (s : State) : (afterCode d i s).sp = s.sp := rfl
@[simp] theorem afterCode_imem (d : Int) (i : Nat) (s : State) : (afterCode d i s).imem = s.imem := rfl
@[simp] theorem afterCode_wmem (d : Int) (i : Nat) (s : State) : (afterCode d i s).wmem = Memory.put s.wmem s.cp (clampInt (s.acc + d) (-(2 ^ (s.prec - 1))) (2 ^ (s.prec - 1) - 1)) := rfl
@[simp] theorem afterCode_omem (d : Int) (i : Nat) (s : State) : (afterCode d i s).omem = s.omem := rfl
@[simp] theorem afterCode_agenda (d : Int) (i : Nat) (s : State) : (afterCode d i s).agenda = s.agenda := rfl
@[simp] theorem afterCode_readback (d : Int) (i : Nat) (s : State) : (afterCode d i s).readback = s.readback := rfl
@[simp] theorem afterCode_epoch (d : Int) (i : Nat) (s : State) : (afterCode d i s).epoch = s.epoch := rfl
@[simp] theorem afterCode_draws (d : Int) (i : Nat) (s : State) : (afterCode d i s).draws = s.draws := rfl

/-! ## Computed reads that an update does not touch -/

@[simp] theorem popTurn_imemAt (s : State) (i : Nat) : s.popTurn.imemAt i = s.imemAt i := rfl
@[simp] theorem popTurn_wmemAt (s : State) (i : Nat) : s.popTurn.wmemAt i = s.wmemAt i := rfl
@[simp] theorem popTurn_omemAt (s : State) (i : Nat) : s.popTurn.omemAt i = s.omemAt i := rfl
@[simp] theorem popTurn_bps (s : State) : s.popTurn.bps = s.bps := rfl
@[simp] theorem popTurn_busy (s : State) : s.popTurn.busy = s.busy := rfl
@[simp] theorem popTurn_codeCount (s : State) : s.popTurn.codeCount = s.codeCount := rfl
@[simp] theorem raiseError_imemAt (e : Err) (n : Nat) (s : State) (i : Nat) : (raiseError e n s).imemAt i = s.imemAt i := rfl
@[simp] theorem raiseError_wmemAt (e : Err) (n : Nat) (s : State) (i : Nat) : (raiseError e n s).wmemAt i = s.wmemAt i := rfl
@[simp] theorem raiseError_omemAt (e : Err) (n : Nat) (s : State) (i : Nat) : (raiseError e n s).omemAt i = s.omemAt i := rfl
@[simp] theorem clearRun_imemAt (p : Phase) (s : State) (i : Nat) : (clearRun p s).imemAt i = s.imemAt i := rfl
@[simp] theorem clearRun_wmemAt (p : Phase) (s : State) (i : Nat) : (clearRun p s).wmemAt i = s.wmemAt i := rfl
@[simp] theorem clearRun_omemAt (p : Phase) (s : State) (i : Nat) : (clearRun p s).omemAt i = s.omemAt i := rfl
@[simp] theorem afterCode_imemAt (d : Int) (j : Nat) (s : State) (i : Nat) : (afterCode d j s).imemAt i = s.imemAt i := rfl
@[simp] theorem afterCode_omemAt (d : Int) (j : Nat) (s : State) (i : Nat) : (afterCode d j s).omemAt i = s.omemAt i := rfl

/-- Busy says the phase is one of the seven working ones (10_state.md R32). -/
theorem busy_iff (s : State) : s.busy = true ↔ s.phase ≠ .idle ∧ s.phase ≠ .done ∧ s.phase ≠ .error := by
  cases h : s.phase <;> simp [State.busy, h, Phase.number]

/-- Not busy says the phase is IDLE, DONE or ERROR, where START and CLEAR act (45_host_commands.md R250, R251). -/
theorem not_busy_iff (s : State) : s.busy = false ↔ s.phase = .idle ∨ s.phase = .done ∨ s.phase = .error := by
  cases h : s.phase <;> simp [State.busy, h, Phase.number]

end Sys2Proof.Machine
end

