-- ==== Sys2Proof/Laws/Operands.lean ====
section
/-! SUPPORT. What the pure functions of Machine/Operands.lean give: bounds, lengths, and the little-endian round trip. -/

namespace Sys2Proof.Machine

/-! ## clamp -/

theorem clampInt_low {x lo hi : Int} (h : x ≤ lo) (hb : lo ≤ hi) : clampInt x lo hi = lo := by
  unfold clampInt; split <;> (try split) <;> omega

theorem clampInt_high {x lo hi : Int} (h : hi ≤ x) (hb : lo ≤ hi) : clampInt x lo hi = hi := by
  unfold clampInt; split <;> (try split) <;> omega

theorem clampInt_inside {x lo hi : Int} (h1 : lo ≤ x) (h2 : x ≤ hi) : clampInt x lo hi = x := by
  unfold clampInt; split <;> (try split) <;> omega

theorem le_clampInt {x lo hi : Int} (hb : lo ≤ hi) : lo ≤ clampInt x lo hi := by
  unfold clampInt; split <;> (try split) <;> omega

theorem clampInt_le {x lo hi : Int} (hb : lo ≤ hi) : clampInt x lo hi ≤ hi := by
  unfold clampInt; split <;> (try split) <;> omega

theorem clampInt_mono {x y lo hi : Int} (h : x ≤ y) (hb : lo ≤ hi) : clampInt x lo hi ≤ clampInt y lo hi := by
  unfold clampInt; split <;> split <;> (try split) <;> (try split) <;> omega

/-- The clamp as the two-sided bound it is. -/
theorem clampInt_eq_max_min {x lo hi : Int} (hb : lo ≤ hi) : clampInt x lo hi = max lo (min x hi) := by
  unfold clampInt; split <;> (try split) <;> omega

/-! ## Sample range -/

theorem sampleMin_le_sampleMax (p : Nat) : sampleMin p ≤ sampleMax p := by
  have : (0 : Int) < 2 ^ (p - 1) := Int.pow_pos (by decide)
  unfold sampleMin sampleMax; omega

/-- A legal precision has at most 16 bits, so a sample fits a WMEM element (20_memory.md R62). -/
theorem sample_fits {p : Nat} (h : p ≤ 16) : -32768 ≤ sampleMin p ∧ sampleMax p ≤ 32767 := by
  have h1 : ∀ q : Fin 16, (2 : Int) ^ q.val ≤ 32768 := by decide
  have h2 := h1 ⟨p - 1, by omega⟩
  simp only at h2
  unfold sampleMin sampleMax; omega

/-! ## Little-endian fields -/

@[simp] theorem le_length (n v : Nat) : (le n v).length = n := by
  induction n generalizing v with
  | zero => rfl
  | succ n ih => simp [le, ih]

theorem leVal_lt (bs : List Byte) : leVal bs < 256 ^ bs.length := by
  induction bs with
  | nil => simp [leVal]
  | cons b bs ih =>
    have hb : b.toNat < 256 := b.isLt
    simp only [leVal, List.length_cons, Nat.pow_succ]
    omega

/-- Reading a little-endian field back gives the number, cut to the field's bytes. -/
theorem leVal_le (n v : Nat) : leVal (le n v) = v % 256 ^ n := by
  induction n generalizing v with
  | zero => simp [le, leVal, Nat.mod_one]
  | succ n ih =>
    simp only [le, leVal, ih, BitVec.toNat_ofNat]
    rw [show 256 ^ (n + 1) = 256 * 256 ^ n by rw [Nat.pow_succ, Nat.mul_comm], Nat.mod_mul]

@[simp] theorem imemBytes_length (s : State) (a n : Nat) : (s.imemBytes a n).length = n := by
  induction n generalizing a with
  | zero => rfl
  | succ n ih => simp [State.imemBytes, ih]

@[simp] theorem omemBytes_length (s : State) (a n : Nat) : (s.omemBytes a n).length = n := by
  induction n generalizing a with
  | zero => rfl
  | succ n ih => simp [State.omemBytes, ih]

theorem imemBytes_get (s : State) (a n k : Nat) (h : k < n) : (s.imemBytes a n)[k]? = some (s.imemAt (a + k)) := by
  induction n generalizing a k with
  | zero => omega
  | succ n ih =>
    cases k with
    | zero => simp [State.imemBytes]
    | succ k => simp [State.imemBytes, ih (a + 1) k (by omega), show a + 1 + k = a + (k + 1) by omega]

theorem omemBytes_get (s : State) (a n k : Nat) (h : k < n) : (s.omemBytes a n)[k]? = some (s.omemAt (a + k)) := by
  induction n generalizing a k with
  | zero => omega
  | succ n ih =>
    cases k with
    | zero => simp [State.omemBytes]
    | succ k => simp [State.omemBytes, ih (a + 1) k (by omega), show a + 1 + k = a + (k + 1) by omega]

/-- Bytes read alike when the memory reads alike. -/
theorem imemBytes_congr (s t : State) (a n : Nat) (h : ∀ i, a ≤ i → i < a + n → s.imemAt i = t.imemAt i) :
    s.imemBytes a n = t.imemBytes a n := by
  induction n generalizing a with
  | zero => rfl
  | succ n ih =>
    simp only [State.imemBytes]
    rw [h a (by omega) (by omega), ih (a + 1) (fun i h1 h2 => h i (by omega) (by omega))]

theorem omemBytes_congr (s t : State) (a n : Nat) (h : ∀ i, a ≤ i → i < a + n → s.omemAt i = t.omemAt i) :
    s.omemBytes a n = t.omemBytes a n := by
  induction n generalizing a with
  | zero => rfl
  | succ n ih =>
    simp only [State.omemBytes]
    rw [h a (by omega) (by omega), ih (a + 1) (fun i h1 h2 => h i (by omega) (by omega))]

@[simp] theorem wavHeader_length (r d rate b : Nat) : (wavHeader r d rate b).length = 44 := by
  simp [wavHeader, tagRiff, tagWave, tagFmt, tagData]

@[simp] theorem sampleBytes_length (x : Int) (i b : Nat) : (sampleBytes x i b).length = b := by
  simp [sampleBytes]

/-! ## Cursor -/

theorem length_pos (pr : Profile) : 1 ≤ pr.length := by cases pr <;> decide

theorem length_le (pr : Profile) : pr.length ≤ 89 := by cases pr <;> decide

/-- Whatever the adjustment, the cursor lands inside a table that has an entry. -/
theorem moveCursor_lt (len idx : Nat) (a : Int) (h : 1 ≤ len) : moveCursor len idx a < len := by
  have h1 : clampInt (idx + a) 0 (len - 1) ≤ (len : Int) - 1 := clampInt_le (by omega)
  have h2 : 0 ≤ clampInt (idx + a) 0 ((len : Int) - 1) := le_clampInt (by omega)
  unfold moveCursor
  omega

/-! ## Precision and width -/

theorem imemReadable_iff (s : State) (a n : Nat) :
    s.imemReadable a n = true ↔ a + n ≤ s.ilen ∧ a + n ≤ s.par.icap := by
  simp [State.imemReadable]

theorem bps_lt (s : State) : s.bps < 16 := s.cfg.bps.isLt

end Sys2Proof.Machine
end

