-- ==== Sys2Proof/Laws/Ops.lean ====
section
/-! SUPPORT. Everything each meaning can do, said once: if it answers a next state, then one of these cases holds. Later proofs
cite these and do not unfold the meanings. -/

namespace Sys2Proof.Machine

/-! ## The codes -/

/-- The shared operation of the codes completes exactly where it is defined, and then leaves `afterCode`. -/
theorem emitSample_next_iff (d a : Int) (s t : State) :
    emitSample d a s = .next t ↔ CodeDefined s ∧ t = afterCode d (moveCursor s.cfg.profile.length s.idx a) s := by
  unfold emitSample CodeDefined
  by_cases h1 : s.idx < s.cfg.profile.length
  · by_cases h2 : 1 ≤ s.prec ∧ s.prec ≤ 16
    · by_cases h3 : s.cp < s.par.wcap
      · rw [if_neg (by simpa using h1), if_neg (not_not_intro h2), if_neg (by simpa using h3)]
        simp only [Host.Outcome.next.injEq]
        constructor
        · intro h; exact ⟨⟨h1, h2.1, h2.2, h3⟩, h.symm⟩
        · intro h; exact h.2.symm
      · simp [h1, h2, h3]
    · rw [if_neg (not_not_intro h1), if_pos h2]
      constructor
      · intro h; cases h
      · intro h; exact absurd ⟨h.1.2.1, h.1.2.2.1⟩ h2
  · simp [h1]

/-- Where a code has no result it stops with a fault, never with a refusal. -/
theorem emitSample_stops (d a : Int) (s : State) (h : ¬ CodeDefined s) :
    ∃ f, emitSample d a s = .fault f := by
  unfold emitSample
  split
  · exact ⟨_, rfl⟩
  · split
    · exact ⟨_, rfl⟩
    · split
      · exact ⟨_, rfl⟩
      · rename_i h1 h2 h3
        exact absurd ⟨Decidable.not_not.mp h1, (Decidable.not_not.mp h2).1, (Decidable.not_not.mp h2).2,
          Decidable.not_not.mp h3⟩ h

/-- A code is the shared operation, with a difference and an adjustment of its own. -/
theorem exec_isCode (i : Instr) (h : isCode i = true) (s : State) :
    ∃ d a, exec i s = emitSample d a s := by
  cases i <;> first | exact ⟨_, _, rfl⟩ | simp [isCode] at h

/-- Every four bits decode to one of the sixteen codes. -/
theorem isCode_decodeCode (c : Code) : isCode (decodeCode c) = true := by
  unfold decodeCode; split <;> rfl

/-- Fetching a code and dispatching on its bits is running the instruction it decodes to. -/
theorem execCode_eq_exec (c : Code) (s : State) : execCode c s = exec (decodeCode c) s := by
  unfold execCode decodeCode
  cases c.getLsbD 3 <;> cases c.getLsbD 2 <;> cases c.getLsbD 1 <;> cases c.getLsbD 0 <;> rfl

/-! ## The front end -/

theorem execCfgchk_cases {s t : State} (h : execCfgchk s = .next t) :
    ((s.bps = 0 ∨ Config.bMax < s.bps) ∧ t = raiseError .cfgBps s.bps s)
    ∨ (1 ≤ s.bps ∧ s.bps ≤ Config.bMax ∧ s.par.icap < s.ilen ∧ t = raiseError .cfgIlen s.ilen s)
    ∨ (ConfigChecked s ∧ s.cfg.variant = .header ∧ t = { s with phase := .sigchk })
    ∨ (ConfigChecked s ∧ s.cfg.variant = .headerless ∧
        t = { s with rate := Config.defRate, prec := Config.defPrec, paysize := 0, poff := 0, phase := .decode }) := by
  unfold execCfgchk at h
  split at h
  · rename_i h1; cases h; exact .inl ⟨h1, rfl⟩
  · rename_i h1
    have hb : 1 ≤ s.bps ∧ s.bps ≤ Config.bMax := by omega
    split at h
    · rename_i h2; cases h; exact .inr (.inl ⟨hb.1, hb.2, h2, rfl⟩)
    · rename_i h2
      have hc : ConfigChecked s := ⟨hb.1, hb.2, by omega⟩
      split at h
      · rename_i h3; cases h; exact .inr (.inr (.inl ⟨hc, h3, rfl⟩))
      · rename_i h3; cases h; exact .inr (.inr (.inr ⟨hc, h3, rfl⟩))

theorem execSigchk_cases {s t : State} (h : execSigchk s = .next t) :
    (s.ilen < 4 ∧ t = raiseError .fmtTruncHeader s.ilen s)
    ∨ (4 ≤ s.ilen ∧ s.imemBytes 0 4 ≠ s.par.sigExpected.toList
        ∧ t = raiseError .fmtSignature (leVal (s.imemBytes 0 4)) s)
    ∨ (4 ≤ s.ilen ∧ s.imemBytes 0 4 = s.par.sigExpected.toList ∧ t = { s with phase := .hdrparse }) := by
  unfold execSigchk at h
  split at h
  · rename_i h1; cases h; exact .inl ⟨h1, rfl⟩
  · rename_i h1
    split at h
    · cases h
    · dsimp only at h
      split at h
      · rename_i h3; cases h; exact .inr (.inl ⟨by omega, h3, rfl⟩)
      · rename_i h3; cases h; exact .inr (.inr ⟨by omega, Decidable.not_not.mp h3, rfl⟩)

theorem execHdrparse_cases {s t : State} (h : execHdrparse s = .next t) :
    (s.ilen < 14 ∧ t = raiseError .fmtTruncHeader s.ilen s)
    ∨ (14 ≤ s.ilen ∧ leVal (s.imemBytes 12 2) ≠ 16 ∧ t = raiseError .fmtPrecision (leVal (s.imemBytes 12 2)) s)
    ∨ (14 ≤ s.ilen ∧ leVal (s.imemBytes 12 2) = 16 ∧ s.par.checkPaysize = true
        ∧ s.ilen - 14 < leVal (s.imemBytes 4 4) ∧ t = raiseError .fmtTruncPayload (s.ilen - 14) s)
    ∨ (14 ≤ s.ilen ∧ leVal (s.imemBytes 12 2) = 16
        ∧ ¬ (s.par.checkPaysize = true ∧ s.ilen - 14 < leVal (s.imemBytes 4 4))
        ∧ 2 ^ 32 ≤ leVal (s.imemBytes 8 4) * s.bps ∧ t = raiseError .fmtRange (leVal (s.imemBytes 8 4)) s)
    ∨ (14 ≤ s.ilen ∧ leVal (s.imemBytes 12 2) = 16
        ∧ ¬ (s.par.checkPaysize = true ∧ s.ilen - 14 < leVal (s.imemBytes 4 4))
        ∧ leVal (s.imemBytes 8 4) * s.bps < 2 ^ 32
        ∧ t = { s with paysize := leVal (s.imemBytes 4 4), rate := leVal (s.imemBytes 8 4), prec := 16, poff := 14,
                       phase := .decode }) := by
  unfold execHdrparse at h
  split at h
  · rename_i h1; cases h; exact .inl ⟨h1, rfl⟩
  · rename_i h1
    have h14 : 14 ≤ s.ilen := by omega
    split at h
    · cases h
    · dsimp only at h
      split at h
      · rename_i h3; cases h; exact .inr (.inl ⟨h14, by simpa [Config.supportedPrec] using h3, rfl⟩)
      · rename_i h3
        have hp : leVal (s.imemBytes 12 2) = 16 := by simpa [Config.supportedPrec] using h3
        split at h
        · rename_i h4; cases h; exact .inr (.inr (.inl ⟨h14, hp, h4.1, h4.2, rfl⟩))
        · rename_i h4
          split at h
          · rename_i h5; cases h; exact .inr (.inr (.inr (.inl ⟨h14, hp, h4, h5, rfl⟩)))
          · rename_i h5; cases h
            exact .inr (.inr (.inr (.inr ⟨h14, hp, h4, by omega, by rw [hp]⟩)))

theorem execDecode_cases {s t : State} (h : execDecode s = .next t) :
    (DecodeComplete s ∧ t = { s with phase := .wavhdr })
    ∨ (¬ DecodeComplete s ∧ s.imemReadable s.codeByteIndex 1 = true ∧ CodeDefined s
        ∧ ∃ d a, t = afterCode d (moveCursor s.cfg.profile.length s.idx a) s) := by
  unfold execDecode at h
  split at h
  · rename_i h1; cases h; exact .inl ⟨h1, rfl⟩
  · rename_i h1
    split at h
    · cases h
    · rename_i h2
      rw [execCode_eq_exec] at h
      obtain ⟨d, a, hd⟩ := exec_isCode _ (isCode_decodeCode s.currentCode) s
      rw [hd, emitSample_next_iff] at h
      exact .inr ⟨h1, Decidable.not_not.mp h2, h.1, d, a, h.2⟩

/-! ## The serializer -/

theorem execWavhdr_cases {s t : State} (h : execWavhdr s = .next t) :
    (s.par.ocap < 44 + s.nsamp * s.bps ∧ t = raiseError .ioFull s.nsamp s)
    ∨ (44 + s.nsamp * s.bps ≤ s.par.ocap ∧ s.rate < 2 ^ 32 ∧ s.rate * s.bps < 2 ^ 32
        ∧ t = { s with omem := Memory.putAll s.omem 0 (wavHeader 0 0 s.rate s.bps), olen := 44, sp := 0,
                       phase := .wavdata }) := by
  unfold execWavhdr at h
  split at h
  · rename_i h1; cases h; exact .inl ⟨h1, rfl⟩
  · rename_i h1
    split at h
    · cases h
    · rename_i h2; cases h
      exact .inr ⟨by omega, (Decidable.not_not.mp h2).1, (Decidable.not_not.mp h2).2, rfl⟩

theorem execWavdata_cases {s t : State} (h : execWavdata s = .next t) :
    (s.sp = s.nsamp ∧ t = { s with phase := .backfill })
    ∨ (s.sp < s.nsamp ∧ 1 ≤ s.prec ∧ s.prec ≤ 16 ∧ 1 ≤ s.bps ∧ s.olen + s.bps ≤ s.par.ocap
        ∧ t = { s with omem := Memory.putAll s.omem s.olen (sampleBytes (s.wmemAt s.sp) s.prec s.bps),
                       olen := s.olen + s.bps, sp := s.sp + 1 }) := by
  unfold execWavdata at h
  split at h
  · rename_i h1; cases h; exact .inl ⟨h1, rfl⟩
  · split at h
    · cases h
    · rename_i h2
      split at h
      · cases h
      · rename_i h3
        split at h
        · cases h
        · split at h
          · cases h
          · cases h
            exact .inr ⟨by omega, (Decidable.not_not.mp h3).1, (Decidable.not_not.mp h3).2, by omega, by omega, rfl⟩

theorem execBackfill_cases {s t : State} (h : execBackfill s = .next t) :
    44 ≤ s.olen ∧ s.olen - 8 < 2 ^ 32 ∧ 44 ≤ s.par.ocap
    ∧ t = { s with omem := Memory.putAll (Memory.putAll s.omem 4 (le 4 (s.olen - 8))) 40 (le 4 (s.olen - 44)),
                   phase := .done } := by
  unfold execBackfill at h
  split at h
  · cases h
  · rename_i h1
    split at h
    · cases h
    · cases h
      exact ⟨(Decidable.not_not.mp h1).1, (Decidable.not_not.mp h1).2, by omega, rfl⟩

/-! ## The commands -/

theorem execStart_cases {s t : State} (h : execStart s = .next t) :
    (s.busy = true ∧ t = s) ∨ (s.busy = false ∧ t = clearRun .cfgchk s) := by
  unfold execStart at h
  split at h
  · rename_i h1; cases h; exact .inl ⟨h1, rfl⟩
  · rename_i h1; cases h; exact .inr ⟨by simpa using h1, rfl⟩

theorem execClear_cases {s t : State} (h : execClear s = .next t) :
    (s.busy = true ∧ t = s) ∨ (s.busy = false ∧ t = clearRun .idle s) := by
  unfold execClear at h
  split at h
  · rename_i h1; cases h; exact .inl ⟨h1, rfl⟩
  · rename_i h1; cases h; exact .inr ⟨by simpa using h1, rfl⟩

/-! ## The host's accesses -/

theorem writeReg_cases (n : Nat) (v : Word) (s : State) :
    writeReg n v s = s
    ∨ (s.busy = false ∧ n = 1 ∧ writeReg n v s = { s with cfg := Cfg.ofWord v })
    ∨ (s.busy = false ∧ n = 2 ∧ writeReg n v s = { s with ilen := v.toNat }) := by
  unfold writeReg
  split
  · exact .inl rfl
  · rename_i h1
    have hb : s.busy = false := by simpa using h1
    split
    · exact .inr (.inl ⟨hb, rfl, rfl⟩)
    · exact .inr (.inr ⟨hb, rfl, rfl⟩)
    · exact .inl rfl

theorem readReg_cases (n : Nat) (s : State) :
    ∃ r d, readReg n s = { s with readback := r, draws := d } := by
  unfold readReg
  split
  · exact ⟨_, _, rfl⟩
  · exact ⟨_, s.draws, rfl⟩

theorem writeImem_cases {i : Nat} {b : Byte} {s t : State} (h : writeImem i b s = .next t) :
    s.busy = false ∧ i < s.par.icap ∧ t = { s with imem := Memory.put s.imem i b } := by
  unfold writeImem at h
  split at h
  · cases h
  · rename_i h1
    split at h
    · cases h
    · rename_i h2; cases h
      exact ⟨by simpa using h1, Decidable.not_not.mp h2, rfl⟩

theorem readWmem_cases {i : Nat} {s t : State} (h : readWmem i s = .next t) :
    i < s.par.wcap ∧ ∃ r d, t = { s with readback := r, draws := d } := by
  unfold readWmem at h
  split at h
  · cases h
  · rename_i h1
    split at h
    · cases h; exact ⟨Decidable.not_not.mp h1, _, s.draws, rfl⟩
    · cases h; exact ⟨Decidable.not_not.mp h1, _, _, rfl⟩

theorem readOmem_cases {i : Nat} {s t : State} (h : readOmem i s = .next t) :
    i < s.par.ocap ∧ ∃ r d, t = { s with readback := r, draws := d } := by
  unfold readOmem at h
  split at h
  · cases h
  · rename_i h1
    split at h
    · cases h; exact ⟨Decidable.not_not.mp h1, _, s.draws, rfl⟩
    · cases h; exact ⟨Decidable.not_not.mp h1, _, _, rfl⟩

end Sys2Proof.Machine
end

