-- ==== Sys2Proof/Laws/PerInstr.lean ====
section
/-! SUPPORT. The family `Encoding`: every instruction is well formed, its encoding is well formed, and decoding it gives the
instruction back. -/

namespace Sys2Proof.Laws.Encoding

/-- Encoding an instruction loses nothing (spec/30_encoding.md R92, R97, R98). -/
def Statement (i : Instr) : Prop := i.wf = true ∧ (encode i).wf = true ∧ decode (encode i) = .ok i

theorem p0 : Statement .p0 := ⟨rfl, rfl, rfl⟩
theorem p1 : Statement .p1 := ⟨rfl, rfl, rfl⟩
theorem p2 : Statement .p2 := ⟨rfl, rfl, rfl⟩
theorem p3 : Statement .p3 := ⟨rfl, rfl, rfl⟩
theorem p4 : Statement .p4 := ⟨rfl, rfl, rfl⟩
theorem p5 : Statement .p5 := ⟨rfl, rfl, rfl⟩
theorem p6 : Statement .p6 := ⟨rfl, rfl, rfl⟩
theorem p7 : Statement .p7 := ⟨rfl, rfl, rfl⟩
theorem n0 : Statement .n0 := ⟨rfl, rfl, rfl⟩
theorem n1 : Statement .n1 := ⟨rfl, rfl, rfl⟩
theorem n2 : Statement .n2 := ⟨rfl, rfl, rfl⟩
theorem n3 : Statement .n3 := ⟨rfl, rfl, rfl⟩
theorem n4 : Statement .n4 := ⟨rfl, rfl, rfl⟩
theorem n5 : Statement .n5 := ⟨rfl, rfl, rfl⟩
theorem n6 : Statement .n6 := ⟨rfl, rfl, rfl⟩
theorem n7 : Statement .n7 := ⟨rfl, rfl, rfl⟩
theorem start : Statement .start := ⟨rfl, rfl, rfl⟩
theorem clear : Statement .clear := ⟨rfl, rfl, rfl⟩
theorem cfgchk : Statement .cfgchk := ⟨rfl, rfl, rfl⟩
theorem sigchk : Statement .sigchk := ⟨rfl, rfl, rfl⟩
theorem hdrparse : Statement .hdrparse := ⟨rfl, rfl, rfl⟩
theorem decode : Statement .decode := ⟨rfl, rfl, rfl⟩
theorem wavhdr : Statement .wavhdr := ⟨rfl, rfl, rfl⟩
theorem wavdata : Statement .wavdata := ⟨rfl, rfl, rfl⟩
theorem backfill : Statement .backfill := ⟨rfl, rfl, rfl⟩

end Sys2Proof.Laws.Encoding
end

