-- ==== Sys2Proof/Laws/Step.lean ====
section
/-! SUPPORT. Everything one step can do: an operation of the block, a pause, or an access of the outside. -/

namespace Sys2Proof.Machine

/-- The decoder of PHASE agrees with the list of phases that have an operation. -/
theorem decodePhase_number (p : Phase) :
    decodePhase p.number = match p.operation with | some i => .ok i | none => .error (.noOperation p.number) := by
  cases p <;> rfl

/-- What the block does in its turn. -/
theorem fetchNext_block (s : State) (h : s.blockMoves = true) : fetchNext s = blockTurn s.popTurn := by
  unfold fetchNext
  unfold State.blockMoves at h
  cases ha : s.agenda with
  | nil =>
    have : s.popTurn = s := by
      unfold State.popTurn; rw [ha]; cases s; simp_all
    rw [this]
  | cons a r =>
    cases a with
    | block => simp [State.popTurn, ha]
    | outside a => simp [ha] at h

/-- What the outside does in its turn. -/
theorem fetchNext_outside (s : State) (a : Outside) (r : List Turn) (h : s.agenda = .outside a :: r) :
    fetchNext s = outsideTurn a s.popTurn := by
  unfold fetchNext; rw [h]; simp [State.popTurn, h]

/-- A step of the block, by the phase (10_state.md R33, 70_reset_and_hazards.md R318). -/
theorem step_block (s : State) (h : s.blockMoves = true) :
    step s = match s.phase.operation with | some i => exec i s.popTurn | none => .next s.popTurn := by
  unfold step
  rw [fetchNext_block s h]
  unfold blockTurn
  rw [popTurn_phase, decodePhase_number]
  cases s.phase.operation <;> rfl

/-- Either the block moves or the outside does. -/
theorem blockMoves_or (s : State) : s.blockMoves = true ∨ ∃ a r, s.agenda = .outside a :: r := by
  unfold State.blockMoves
  cases s.agenda with
  | nil => exact .inl rfl
  | cons a r =>
    cases a with
    | block => exact .inl rfl
    | outside a => exact .inr ⟨a, r, rfl⟩

/-- A step of the outside that is no write to CMD. -/
theorem step_outside (s : State) (a : Outside) (r : List Turn) (h : s.agenda = .outside a :: r) :
    step s = match outsideTurn a s.popTurn with | .run i u => exec i u | .other o => o :=
  congrArg (fun f => match f with | .run i u => exec i u | .other o => o) (fetchNext_outside s a r h)

/-- The outside's turn when it writes to CMD. -/
theorem outsideTurn_command (v : Word) (s : State) :
    outsideTurn (.writeReg 0 v) s
      = match decodeCommand v with | .ok i => Fetched.run i s | .error _ => Fetched.other (.next s) := rfl

/-- A write to CMD (10_state.md R28, 30_encoding.md R97, R103). -/
theorem step_command (s : State) (v : Word) (r : List Turn) (h : s.agenda = .outside (.writeReg 0 v) :: r) :
    step s = match decodeCommand v with | .ok i => exec i s.popTurn | .error _ => .next s.popTurn := by
  rw [step_outside s _ r h]
  rw [outsideTurn_command]
  cases decodeCommand v <;> rfl

/-- The commands are the only words CMD knows. -/
theorem decodeCommand_cases (v : Word) :
    (v = 1#32 ∧ decodeCommand v = .ok .start) ∨ (v = 2#32 ∧ decodeCommand v = .ok .clear)
    ∨ (v ≠ 1#32 ∧ v ≠ 2#32 ∧ decodeCommand v = .error (.reservedCommand v)) := by
  unfold decodeCommand
  by_cases h1 : v = 1#32
  · exact .inl ⟨h1, by simp [h1]⟩
  · by_cases h2 : v = 2#32
    · exact .inr (.inl ⟨h2, by simp [h2]⟩)
    · exact .inr (.inr ⟨h1, h2, by simp [h1, h2]⟩)

/-- Everything a step that answers a next state can have done. -/
theorem step_cases {s t : State} (h : step s = .next t) :
    (s.blockMoves = true ∧ ∃ i, s.phase.operation = some i ∧ exec i s.popTurn = .next t)
    ∨ (s.blockMoves = true ∧ s.phase.operation = none ∧ t = s.popTurn)
    ∨ (∃ a r, s.agenda = .outside a :: r ∧
        ((∃ v, a = .writeReg 0 v ∧
            (exec .start s.popTurn = .next t ∨ exec .clear s.popTurn = .next t ∨ t = s.popTurn))
        ∨ (∃ n v, a = .writeReg n v ∧ n ≠ 0 ∧ t = writeReg n v s.popTurn)
        ∨ (∃ n, a = .readReg n ∧ t = readReg n s.popTurn)
        ∨ (∃ i b, a = .writeImem i b ∧ writeImem i b s.popTurn = .next t)
        ∨ (∃ i, a = .readWmem i ∧ readWmem i s.popTurn = .next t)
        ∨ (∃ i, a = .readOmem i ∧ readOmem i s.popTurn = .next t)
        ∨ (a = .reset ∧ t = resetEvent s.popTurn))) := by
  rcases blockMoves_or s with hb | ⟨a, r, ha⟩
  · rw [step_block s hb] at h
    cases ho : s.phase.operation with
    | none => rw [ho] at h; cases h; exact .inr (.inl ⟨hb, rfl, rfl⟩)
    | some i => rw [ho] at h; exact .inl ⟨hb, i, rfl, h⟩
  · refine .inr (.inr ⟨a, r, ha, ?_⟩)
    rw [step_outside s a r ha] at h
    cases a with
    | writeReg n v =>
      cases n with
      | zero =>
        refine .inl ⟨v, rfl, ?_⟩
        rw [outsideTurn_command] at h
        rcases decodeCommand_cases v with ⟨_, hv⟩ | ⟨_, hv⟩ | ⟨_, _, hv⟩
        · rw [hv] at h; exact .inl h
        · rw [hv] at h; exact .inr (.inl h)
        · rw [hv] at h; cases h; exact .inr (.inr rfl)
      | succ n =>
        unfold outsideTurn at h
        cases h
        exact .inr (.inl ⟨n + 1, v, rfl, by omega, rfl⟩)
    | readReg n => unfold outsideTurn at h; cases h; exact .inr (.inr (.inl ⟨n, rfl, rfl⟩))
    | writeImem i b => unfold outsideTurn at h; exact .inr (.inr (.inr (.inl ⟨i, b, rfl, h⟩)))
    | readWmem i => unfold outsideTurn at h; exact .inr (.inr (.inr (.inr (.inl ⟨i, rfl, h⟩))))
    | readOmem i => unfold outsideTurn at h; exact .inr (.inr (.inr (.inr (.inr (.inl ⟨i, rfl, h⟩)))))
    | reset => unfold outsideTurn at h; cases h; exact .inr (.inr (.inr (.inr (.inr (.inr ⟨rfl, rfl⟩)))))

end Sys2Proof.Machine
end

