-- ==== Sys2Proof/Tests/Slice0.lean ====
section
/-! SUPPORT. The model's own tests. Expected values are the spec's worked examples and tables, named at each test. Witnesses show
that the hypotheses of a statement can be met, each clause at the edge of its range. -/

namespace Sys2Proof.Tests

open Sys2Proof Sys2Proof.Machine

/-! ## Helpers -/

/-- A table for tests: `T[0] = T[86] = 1552`, `T[12] = 23`, as the worked examples of 41_adpcm_decoder.md assume. -/
def testT89 : Vector Nat 89 :=
  ⟨⟨[1552] ++ List.replicate 11 0 ++ [23] ++ List.replicate 73 0 ++ [1552] ++ List.replicate 2 0⟩, by decide⟩

/-- The test-only marker "TCMP" (42_cmp_source.md R181), small memories. -/
def testParams : Params :=
  { t16 := ⟨⟨List.range 16⟩, by decide⟩, t89 := testT89, sigExpected := ⟨⟨[0x54#8, 0x43#8, 0x4D#8, 0x50#8]⟩, by decide⟩
    checkPaysize := false, icap := 32, ocap := 80 }

def cfgOf (v : Variant) (b : BitVec 4) : Cfg := { variant := v, profile := .full, nibord := .lowFirst, bps := b }

/-- A block after reset, configured headerless with two bytes a sample, and its file in IMEM. -/
def withFile (bytes : List Byte) : State :=
  { State.resetOf testParams with
    cfg := cfgOf .headerless 2#4, ilen := bytes.length, imem := Memory.putAll [] 0 bytes }

/-- The header of 42_cmp_source.md R182's worked example: size 2, rate 8000, precision 16. -/
def headerBytes : List Byte :=
  [0x54#8, 0x43#8, 0x4D#8, 0x50#8, 0x02#8, 0x00#8, 0x00#8, 0x00#8, 0x40#8, 0x1F#8, 0x00#8, 0x00#8, 0x10#8, 0x00#8]

/-- The document's golden payload (42_cmp_source.md R185). -/
def golden : List Byte := [0x21#8, 0x43#8, 0x65#8, 0x87#8, 0xA9#8, 0xCB#8, 0xED#8, 0x0F#8]

/-- A file with a header, in the header variant, one byte a sample. -/
def withHeader (bytes : List Byte) : State := { withFile bytes with cfg := cfgOf .header 1#4 }

/-- The block ready to execute a code at precision 12. -/
def codeState (idx : Nat) (acc : Int) : State :=
  { State.resetOf testParams with cfg := cfgOf .headerless 2#4, phase := .decode, prec := 12, idx := idx, acc := acc }

def after : Out → Option State
  | .next t => some t
  | _ => none

def faultOf : Out → Option Fault
  | .fault f => some f
  | _ => none

/-- What a code leaves in ACC, IDX and `WMEM[0]`, and the counts. -/
def codeResult (i : Instr) (s : State) : Option (Int × Nat × Int × Nat × Nat) :=
  (after (exec i s)).map fun t => (t.acc, t.idx, t.wmemAt 0, t.cp, t.nsamp)

/-! ## Well-formedness: what is ill-formed is refused -/

theorem test_params_wf : testParams.wf = true := by decide
theorem test_icap_too_large : ({ testParams with icap := 2 ^ 31 } : Params).wf = false := by decide
theorem test_ocap_too_small : ({ testParams with ocap := 43 } : Params).wf = false := by decide
theorem test_ocap_too_large : ({ testParams with ocap := 2 ^ 32 } : Params).wf = false := by decide
theorem test_command_zero_ill_formed : (Encoded.command 0#32).wf = false := by decide
theorem test_command_three_ill_formed : (Encoded.command 3#32).wf = false := by decide
theorem test_phase_zero_ill_formed : (Encoded.phase 0#4).wf = false := by decide
theorem test_phase_eight_ill_formed : (Encoded.phase 8#4).wf = false := by decide

/-! ## Decoding: every word written out from 30_encoding.md R92, R97, R98 -/

theorem test_decode_positive_codes :
    decode (.code 0b0000#4) = .ok .p0 ∧ decode (.code 0b0001#4) = .ok .p1 ∧ decode (.code 0b0010#4) = .ok .p2
    ∧ decode (.code 0b0011#4) = .ok .p3 ∧ decode (.code 0b0100#4) = .ok .p4 ∧ decode (.code 0b0101#4) = .ok .p5
    ∧ decode (.code 0b0110#4) = .ok .p6 ∧ decode (.code 0b0111#4) = .ok .p7 :=
  ⟨rfl, rfl, rfl, rfl, rfl, rfl, rfl, rfl⟩

theorem test_decode_negative_codes :
    decode (.code 0b1000#4) = .ok .n0 ∧ decode (.code 0b1001#4) = .ok .n1 ∧ decode (.code 0b1010#4) = .ok .n2
    ∧ decode (.code 0b1011#4) = .ok .n3 ∧ decode (.code 0b1100#4) = .ok .n4 ∧ decode (.code 0b1101#4) = .ok .n5
    ∧ decode (.code 0b1110#4) = .ok .n6 ∧ decode (.code 0b1111#4) = .ok .n7 :=
  ⟨rfl, rfl, rfl, rfl, rfl, rfl, rfl, rfl⟩

theorem test_decode_commands :
    decode (.command 0b00000000000000000000000000000001#32) = .ok .start
    ∧ decode (.command 0b00000000000000000000000000000010#32) = .ok .clear
    ∧ decode (.command 0#32) = .error (.reservedCommand 0#32)
    ∧ decode (.command 0xFFFFFFFF#32) = .error (.reservedCommand 0xFFFFFFFF#32) :=
  ⟨rfl, rfl, rfl, rfl⟩

theorem test_decode_phases :
    decode (.phase 0b0001#4) = .ok .cfgchk ∧ decode (.phase 0b0010#4) = .ok .sigchk
    ∧ decode (.phase 0b0011#4) = .ok .hdrparse ∧ decode (.phase 0b0100#4) = .ok .decode
    ∧ decode (.phase 0b0101#4) = .ok .wavhdr ∧ decode (.phase 0b0110#4) = .ok .wavdata
    ∧ decode (.phase 0b0111#4) = .ok .backfill ∧ decode (.phase 0b0000#4) = .error (.noOperation 0#4)
    ∧ decode (.phase 0b1111#4) = .error (.noOperation 15#4) :=
  ⟨rfl, rfl, rfl, rfl, rfl, rfl, rfl, rfl, rfl⟩

/-- 42_cmp_source.md R185: the golden payload gives 1, 2, ..., 15, 0, or with high nibbles first 2, 1, 4, 3, ..., 0, 15. -/
theorem test_golden_codes :
    unpackCodes .lowFirst golden
      = [1#4, 2#4, 3#4, 4#4, 5#4, 6#4, 7#4, 8#4, 9#4, 10#4, 11#4, 12#4, 13#4, 14#4, 15#4, 0#4]
    ∧ unpackCodes .highFirst golden
      = [2#4, 1#4, 4#4, 3#4, 6#4, 5#4, 8#4, 7#4, 10#4, 9#4, 12#4, 11#4, 14#4, 13#4, 0#4, 15#4] := by decide

/-- The opcode table's numbering: a code in the low nibble, a command in 32 bits. -/
theorem test_table_words :
    decodeTableWord 8 0 = some .p0 ∧ decodeTableWord 8 15 = some .n7 ∧ decodeTableWord 32 1 = some .start
    ∧ decodeTableWord 32 2 = some .clear ∧ decodeTableWord 32 0 = none := ⟨rfl, rfl, rfl, rfl, rfl⟩

/-! ## The first step after reset, with an instruction placed -/

theorem test_placed_code_runs :
    (after (step (State.reset.withFetchWord 8 0xE))).map (fun t => (t.cp, t.nsamp, t.phase)) = some (1, 1, .decode) := rfl

theorem test_placed_start_runs :
    (after (step (State.reset.withFetchWord 32 1))).map (fun t => t.phase) = some .cfgchk := rfl

/-! ## The sixteen codes: the worked and the clamped example of each rule R150 to R165 -/

theorem test_p0 : codeResult .p0 (codeState 12 100) = some (102, 11, 102, 1, 1)
    ∧ codeResult .p0 (codeState 0 2000) = some (2047, 0, 2047, 1, 1) := by decide
theorem test_p1 : codeResult .p1 (codeState 12 100) = some (107, 11, 107, 1, 1)
    ∧ codeResult .p1 (codeState 0 2000) = some (2047, 0, 2047, 1, 1) := by decide
theorem test_p2 : codeResult .p2 (codeState 12 100) = some (113, 11, 113, 1, 1)
    ∧ codeResult .p2 (codeState 0 2000) = some (2047, 0, 2047, 1, 1) := by decide
theorem test_p3 : codeResult .p3 (codeState 12 100) = some (118, 11, 118, 1, 1)
    ∧ codeResult .p3 (codeState 0 2000) = some (2047, 0, 2047, 1, 1) := by decide
theorem test_p4 : codeResult .p4 (codeState 12 100) = some (125, 14, 125, 1, 1)
    ∧ codeResult .p4 (codeState 86 2000) = some (2047, 88, 2047, 1, 1) := by decide
theorem test_p5 : codeResult .p5 (codeState 12 100) = some (130, 16, 130, 1, 1)
    ∧ codeResult .p5 (codeState 86 2000) = some (2047, 88, 2047, 1, 1) := by decide
theorem test_p6 : codeResult .p6 (codeState 12 100) = some (136, 18, 136, 1, 1)
    ∧ codeResult .p6 (codeState 86 2000) = some (2047, 88, 2047, 1, 1) := by decide
theorem test_p7 : codeResult .p7 (codeState 12 100) = some (141, 20, 141, 1, 1)
    ∧ codeResult .p7 (codeState 86 2000) = some (2047, 88, 2047, 1, 1) := by decide
theorem test_n0 : codeResult .n0 (codeState 12 100) = some (98, 11, 98, 1, 1)
    ∧ codeResult .n0 (codeState 0 (-2000)) = some (-2048, 0, -2048, 1, 1) := by decide
theorem test_n1 : codeResult .n1 (codeState 12 100) = some (93, 11, 93, 1, 1)
    ∧ codeResult .n1 (codeState 0 (-2000)) = some (-2048, 0, -2048, 1, 1) := by decide
theorem test_n2 : codeResult .n2 (codeState 12 100) = some (87, 11, 87, 1, 1)
    ∧ codeResult .n2 (codeState 0 (-2000)) = some (-2048, 0, -2048, 1, 1) := by decide
theorem test_n3 : codeResult .n3 (codeState 12 100) = some (82, 11, 82, 1, 1)
    ∧ codeResult .n3 (codeState 0 (-2000)) = some (-2048, 0, -2048, 1, 1) := by decide
theorem test_n4 : codeResult .n4 (codeState 12 100) = some (75, 14, 75, 1, 1)
    ∧ codeResult .n4 (codeState 86 (-2000)) = some (-2048, 88, -2048, 1, 1) := by decide
theorem test_n5 : codeResult .n5 (codeState 12 100) = some (70, 16, 70, 1, 1)
    ∧ codeResult .n5 (codeState 86 (-2000)) = some (-2048, 88, -2048, 1, 1) := by decide
theorem test_n6 : codeResult .n6 (codeState 12 100) = some (64, 18, 64, 1, 1)
    ∧ codeResult .n6 (codeState 86 (-2000)) = some (-2048, 88, -2048, 1, 1) := by decide
theorem test_n7 : codeResult .n7 (codeState 12 100) = some (59, 20, 59, 1, 1)
    ∧ codeResult .n7 (codeState 86 (-2000)) = some (-2048, 88, -2048, 1, 1) := by decide

/-- 30_encoding.md R94: `t = 7`, `m = 7` gives `7+3+1+0 = 11`, not 13: the shifts are taken apart. -/
theorem test_separate_shifts : magnitude 7 0x7#4 = 11 ∧ magnitude 8 0x7#4 = 15 ∧ magnitude 7 0x1#4 = 1 := by decide

/-- 40_step_table.md R123: 84 + 6 saturates at 88; 12 + 8 at 15 of the short table; 0 - 1 at 0. -/
theorem test_cursor_saturates : advance 89 84 0x6#4 = 88 ∧ advance 16 12 0x7#4 = 15 ∧ advance 89 0 0xB#4 = 0
    ∧ advance 16 14 0x4#4 = 15 := by decide

/-! ## The front end: the worked examples of 42_cmp_source.md -/

theorem test_cfgchk_headerless :
    (after (exec .cfgchk { withFile golden with phase := .cfgchk })).map
        (fun t => (t.rate, t.prec, t.paysize, t.poff, t.phase)) = some (22500, 12, 0, 0, .decode) := by decide

theorem test_cfgchk_no_width :
    (after (exec .cfgchk { withFile golden with cfg := cfgOf .headerless 0#4 })).map
        (fun t => (t.err, t.errinfo, t.phase)) = some (.cfgBps, 0, .error) := by decide

theorem test_sigchk_mismatch :
    (after (exec .sigchk (withHeader ([0x52#8, 0x49#8, 0x46#8, 0x46#8] ++ List.replicate 16 0#8)))).map
        (fun t => (t.err, t.errinfo, t.olen, t.phase)) = some (.fmtSignature, 0x46464952, 0, .error) := by decide

theorem test_sigchk_match :
    (after (exec .sigchk (withHeader headerBytes))).map (fun t => t.phase) = some .hdrparse := by decide

theorem test_hdrparse_fields :
    (after (exec .hdrparse (withHeader (headerBytes ++ [0x21#8, 0x43#8])))).map
        (fun t => (t.paysize, t.rate, t.prec, t.poff, t.phase)) = some (2, 8000, 16, 14, .decode) := by decide

theorem test_hdrparse_precision :
    (after (exec .hdrparse (withHeader (headerBytes.take 12 ++ [0x0C#8, 0x00#8])))).map
        (fun t => (t.err, t.errinfo, t.rate, t.phase)) = some (.fmtPrecision, 12, 0, .error) := by decide

/-- R184: `CP = 1` of the golden payload executes `P2` (`T[0] >> 1` plus `T[0] >> 3`, 776 + 194). -/
theorem test_decode_fetches :
    (after (exec .decode { withFile golden with phase := .decode, prec := 12, cp := 1, nsamp := 1 })).map
        (fun t => (t.cp, t.acc, t.wmemAt 1, t.phase)) = some (2, 970, 970, .decode) := by decide

theorem test_decode_ends :
    (after (exec .decode { withFile golden with phase := .decode, prec := 12, cp := 16, nsamp := 16 })).map
        (fun t => (t.cp, t.phase)) = some (16, .wavhdr) := by decide

/-! ## The normalizer and the serializer -/

/-- 43_pcm_normalizer.md R207, the whole table. -/
theorem test_norm_edges_12 :
    [-2049, -2048, -2047, -2, -1, 0, 1, 2, 2046, 2047, 2048].map (fun x => pcmNorm x 12 1)
      = [-127, -127, -127, 0, 0, 0, 0, 0, 127, 127, 127]
    ∧ [-2049, -2048, -2047, -2, -1, 0, 1, 2, 2046, 2047, 2048].map (fun x => pcmNorm x 12 2)
      = [-32767, -32767, -32751, -24, -8, 8, 24, 40, 32751, 32767, 32767]
    ∧ [-2049, -2048, -2047, -2, -1, 0, 1, 2, 2046, 2047, 2048].map (fun x => pcmNorm x 12 3)
      = [-8388607, -8388607, -8384510, -6145, -2048, 2048, 6145, 10242, 8384510, 8388607, 8388607]
    ∧ [-2049, -2048, -2047, -2, -1, 0, 1, 2, 2046, 2047, 2048].map (fun x => pcmNorm x 12 4)
      = [-2147483647, -2147483647, -2146434815, -1573248, -524416, 524416, 1573248, 2622080, 2146434815, 2147483647,
         2147483647] := by decide

theorem test_norm_edges_16 :
    [-32769, -32768, -32767, -2, -1, 0, 1, 2, 32766, 32767, 32768].map (fun x => pcmNorm x 16 1)
      = [-127, -127, -127, 0, 0, 0, 0, 0, 127, 127, 127]
    ∧ [-32769, -32768, -32767, -2, -1, 0, 1, 2, 32766, 32767, 32768].map (fun x => pcmNorm x 16 2)
      = [-32767, -32767, -32766, -1, 0, 0, 1, 2, 32766, 32767, 32767]
    ∧ [-32769, -32768, -32767, -2, -1, 0, 1, 2, 32766, 32767, 32768].map (fun x => pcmNorm x 16 3)
      = [-8388607, -8388607, -8388351, -384, -128, 128, 384, 640, 8388351, 8388607, 8388607]
    ∧ [-32769, -32768, -32767, -2, -1, 0, 1, 2, 32766, 32767, 32768].map (fun x => pcmNorm x 16 4)
      = [-2147483647, -2147483647, -2147418110, -98305, -32768, 32768, 98305, 163842, 2147418110, 2147483647,
         2147483647] := by decide

/-- 44_wav_sink.md R224: 1 becomes `18 00`, -28 becomes `48 FE`, and -1 in three bytes `00 F8 FF`. -/
theorem test_sample_bytes :
    sampleBytes 1 12 2 = [0x18#8, 0x00#8] ∧ sampleBytes (-28) 12 2 = [0x48#8, 0xFE#8]
    ∧ sampleBytes (-1) 12 3 = [0x00#8, 0xF8#8, 0xFF#8] := by decide

/-- The block at the start of the export of `n` samples. -/
def sinkState (p : Phase) (n olen : Nat) : State :=
  { withFile golden with phase := p, rate := 22500, prec := 12, cp := n, nsamp := n, olen := olen }

/-- 44_wav_sink.md R222: the worked example's 44 bytes. -/
theorem test_wavhdr_bytes :
    (after (exec .wavhdr (sinkState .wavhdr 16 0))).map (fun t => (t.omemBytes 0 44, t.olen, t.sp, t.phase))
      = some ([0x52#8, 0x49#8, 0x46#8, 0x46#8, 0x00#8, 0x00#8, 0x00#8, 0x00#8, 0x57#8, 0x41#8, 0x56#8, 0x45#8, 0x66#8,
          0x6D#8, 0x74#8, 0x20#8, 0x10#8, 0x00#8, 0x00#8, 0x00#8, 0x01#8, 0x00#8, 0x01#8, 0x00#8, 0xE4#8, 0x57#8, 0x00#8,
          0x00#8, 0xC8#8, 0xAF#8, 0x00#8, 0x00#8, 0x02#8, 0x00#8, 0x10#8, 0x00#8, 0x64#8, 0x61#8, 0x74#8, 0x61#8, 0x00#8,
          0x00#8, 0x00#8, 0x00#8], 44, 0, .wavdata) := by decide

/-- 60_exceptions.md R277: one byte too many. -/
theorem test_wavhdr_full :
    (after (exec .wavhdr (sinkState .wavhdr 19 0))).map (fun t => (t.err, t.errinfo, t.olen, t.phase))
      = some (.ioFull, 19, 0, .error) := by decide

theorem test_wavdata_sample :
    (after (exec .wavdata { sinkState .wavdata 1 44 with wmem := [(0, -28)] })).map
        (fun t => (t.omemBytes 44 2, t.olen, t.sp, t.phase)) = some ([0x48#8, 0xFE#8], 46, 1, .wavdata) := by decide

theorem test_wavdata_ends :
    (after (exec .wavdata { sinkState .wavdata 1 46 with sp := 1 })).map (fun t => (t.olen, t.phase))
      = some (46, .backfill) := by decide

/-- 44_wav_sink.md R225: 16 samples of two bytes, sizes 68 and 32. -/
theorem test_backfill_sizes :
    (after (exec .backfill (sinkState .backfill 16 76))).map
        (fun t => (t.omemBytes 4 4, t.omemBytes 40 4, t.olen, t.phase))
      = some ([0x44#8, 0x00#8, 0x00#8, 0x00#8], [0x20#8, 0x00#8, 0x00#8, 0x00#8], 76, .done) := by decide

/-- 44_wav_sink.md R227: no sample gives 36 and 0. -/
theorem test_backfill_empty :
    (after (exec .backfill (sinkState .backfill 0 44))).map (fun t => (t.omemBytes 4 4, t.omemBytes 40 4))
      = some ([0x24#8, 0x00#8, 0x00#8, 0x00#8], [0x00#8, 0x00#8, 0x00#8, 0x00#8]) := by decide

/-! ## Commands and the host's accesses -/

/-- The block after a finished run (45_host_commands.md R250's worked example). -/
def doneState : State :=
  { sinkState .done 16 76 with idx := 35, acc := -352, sp := 16 }

theorem test_start :
    (after (exec .start doneState)).map (fun t => (t.idx, t.acc, t.nsamp, t.olen, t.phase)) = some (0, 0, 0, 0, .cfgchk) := by
  decide

theorem test_start_while_busy :
    (after (exec .start (sinkState .wavdata 1 44))) = some (sinkState .wavdata 1 44) := by decide

/-- 45_host_commands.md R251's worked example. -/
theorem test_clear :
    (after (exec .clear { withFile golden with phase := .error, err := .fmtSignature, errinfo := 0x46464952 })).map
        (fun t => (t.phase, t.err, t.errinfo, t.ilen)) = some (.idle, .none, 0, 8) := by decide

/-- `ACC` is sign-extended: -352 reads as 0xFFFFFEA0 (10_state.md R22); STATUS in DONE is 8; CMD and register 15 read 0. -/
theorem test_register_values :
    doneState.regValue 12 = 0xFFFFFEA0#32 ∧ doneState.regValue 3 = 8#32 ∧ doneState.regValue 0 = 0#32
    ∧ doneState.regValue 15 = 0#32 ∧ (raiseError .ioFull 9 doneState).regValue 3 = 0x809#32
    ∧ (sinkState .decode 0 0).regValue 3 = 0x1004#32 := by decide

/-- 10_state.md R29, R31: of CFG only bits 7:4 and 2:0 hold anything. -/
theorem test_cfg_reserved_bits :
    (Cfg.ofWord 0xFFFFFFFF#32).toWord = 0xF7#32 ∧ Cfg.ofWord 0x23#32 = cfgOf .header 2#4
    ∧ (cfgOf .header 2#4).toWord = 0x23#32 := by decide

theorem test_reset_pins :
    (after (step { doneState with agenda := [.outside .reset] })).map
        (fun t => (t.phase, t.ilen, t.cfg, t.imem.length, t.epoch)) = some (.idle, 0, Cfg.reset, 0, 1) := by decide

/-! ## Witnesses: states that meet the hypotheses of the statements, each clause at the edge of its range -/

/-- The instruction answers a next state here. -/
def completes (i : Instr) (s : State) : Bool := (after (exec i s)).isSome

/-- A step answers a next state here. -/
def steps (s : State) : Bool := (after (step s)).isSome

def withTurn (a : Outside) (s : State) : State := { s with agenda := [.outside a] }

theorem witness_DecodeEncodeAgree :
    decode (.command 2#32) = .ok .clear ∧ decode (.phase 7#4) = .ok .backfill
    ∧ (Encoded.command 3#32).wf = false ∧ (Encoded.phase 8#4).wf = false ∧ (Encoded.phase 0#4).wf = false :=
  ⟨rfl, rfl, rfl, rfl, rfl⟩

theorem witness_StreamPackUnpack : ([] : List Code).length % 2 = 0 ∧ ([0x1#4, 0xF#4] : List Code).length % 2 = 0 := by decide

theorem witness_FetchFollowsPlaybackOrder :
    (({ withFile golden with cp := 15 } : State).cp : Int)
      < 2 * ((({ withFile golden with cp := 15 } : State).ilen : Int) - (withFile golden).poff) := by decide

theorem witness_StepRunsSelectedOperation :
    ([.idle, .cfgchk, .sigchk, .hdrparse, .decode, .wavhdr, .wavdata, .backfill, .done, .error] : List Phase).all
      (fun p => ({ withFile golden with phase := p } : State).blockMoves) = true
    ∧ decode (.phase (Phase.number .backfill)) = .ok .backfill := ⟨by decide, rfl⟩

theorem witness_DecodeStepRunsFetchedCode :
    let s : State := { withFile golden with phase := .decode, cp := 15, nsamp := 15, prec := 12 }
    s.blockMoves = true ∧ (s.cp : Int) ≠ 2 * ((s.ilen : Int) - s.poff) ∧ s.imemReadable (s.poff + s.cp / 2) 1 = true
    ∧ decode (.code (nib s.cfg.nibord (s.imemAt (s.poff + s.cp / 2)) (s.cp % 2))) = .ok .p0 :=
  ⟨rfl, by decide, rfl, rfl⟩

theorem witness_CommandWriteRunsCommand :
    (withTurn (.writeReg 0 1#32) doneState).agenda = .outside (.writeReg 0 1#32) :: []
    ∧ decode (.command 1#32) = .ok .start ∧ (0#32 : Word) ≠ 1#32 ∧ (3#32 : Word) ≠ 2#32 := ⟨rfl, rfl, by decide, by decide⟩

theorem witness_PlacedInstructionRuns :
    State.reset.poff + State.reset.cp / 2 < State.reset.par.icap ∧ (0 < 16 ∧ 15 < 16) ∧ decodeTableWord 32 1 = some .start :=
  ⟨by decide, by decide, rfl⟩

/-- Both ends of the table, of the precision and of WMEM. -/
theorem witness_code_statements :
    (CodeDefined (codeState 0 0) ∧ StepIs (codeState 0 0) 1552)
    ∧ (CodeDefined { codeState 88 0 with prec := 16, cp := 63 } ∧ StepIs { codeState 88 0 with prec := 16, cp := 63 } 0)
    ∧ CodeDefined { codeState 86 0 with prec := 1 } := by
  refine ⟨⟨⟨?_, ?_, ?_, ?_⟩, rfl⟩, ⟨⟨?_, ?_, ?_, ?_⟩, rfl⟩, ⟨?_, ?_, ?_, ?_⟩⟩ <;> decide

theorem witness_UndefinedOperandsStop_codes :
    89 ≤ (codeState 89 0).idx ∧ (codeState 89 0).cfg.profile.length = 89
    ∧ ({ codeState 88 0 with prec := 17 } : State).prec > 16 ∧ ({ codeState 0 0 with prec := 0 } : State).prec = 0
    ∧ (codeState 0 0).par.wcap ≤ ({ codeState 0 0 with cp := 64 } : State).cp
    ∧ faultOf (exec .n7 (codeState 89 0)) = some .cursorOutOfTable
    ∧ faultOf (exec .p0 { codeState 88 0 with prec := 17 }) = some .precisionOutOfRange
    ∧ faultOf (exec .p0 { codeState 0 0 with cp := 64 }) = some .wmemOutOfRange := by decide

/-- The other clauses: each operand just outside what the primitive needs. -/
theorem witness_UndefinedOperandsStop_rest :
    faultOf (exec .sigchk { withFile golden with ilen := 4, par := { testParams with icap := 3 } }) = some .imemOutOfRange
    ∧ faultOf (exec .hdrparse { withFile golden with ilen := 14, par := { testParams with icap := 13 } })
        = some .imemOutOfRange
    ∧ faultOf (exec .decode { withFile golden with cp := 17 }) = some .imemOutOfRange
    ∧ faultOf (exec .wavhdr { withFile golden with rate := 2 ^ 31 }) = some .fieldOutOfRange
    ∧ faultOf (exec .wavdata { sinkState .wavdata 1 44 with sp := 2 }) = some .wmemOutOfRange
    ∧ faultOf (exec .wavdata { sinkState .wavdata 1 44 with prec := 17 }) = some .precisionOutOfRange
    ∧ faultOf (exec .wavdata { sinkState .wavdata 1 44 with cfg := cfgOf .headerless 0#4 }) = some .widthOutOfRange
    ∧ faultOf (exec .wavdata (sinkState .wavdata 1 79)) = some .omemOutOfRange
    ∧ faultOf (exec .backfill (sinkState .backfill 0 43)) = some .fieldOutOfRange
    ∧ faultOf (exec .backfill { sinkState .backfill 0 44 with par := { testParams with ocap := 43 } })
        = some .omemOutOfRange := by decide

/-- The frame and range statements of the codes; every selector, at the first cursor that saturates and the last that does
not. -/
theorem witness_codes_complete :
    ([.p0, .p1, .p2, .p3, .p4, .p5, .p6, .p7, .n0, .n1, .n2, .n3, .n4, .n5, .n6, .n7] : List Instr).all
      (fun i => isCode i && completes i (codeState 0 0) && completes i (codeState 88 0)) = true
    ∧ (completes .p4 (codeState 87 0) && completes .p5 (codeState 84 0) && completes .p5 (codeState 85 0)
      && completes .p6 (codeState 82 0) && completes .p6 (codeState 83 0) && completes .p7 (codeState 80 0)
      && completes .p7 (codeState 81 0)) = true := by decide

theorem witness_CfgchkResult :
    let s (b : BitVec 4) (n : Nat) (v : Variant) : State := { withFile golden with cfg := cfgOf v b, ilen := n }
    (s 0#4 8 .header).bps = 0 ∧ 4 < (s 5#4 8 .header).bps ∧ (s 1#4 8 .header).bps = 1 ∧ (s 4#4 8 .header).bps ≤ 4
    ∧ (s 4#4 33 .header).par.icap < (s 4#4 33 .header).ilen ∧ (s 4#4 32 .header).ilen ≤ (s 4#4 32 .header).par.icap
    ∧ (s 1#4 8 .header).cfg.variant = .header ∧ (s 1#4 8 .headerless).cfg.variant = .headerless := by decide

theorem witness_SigchkResult :
    (withHeader (headerBytes.take 3)).ilen < 4 ∧ 4 ≤ (withHeader (headerBytes.take 4)).ilen
    ∧ 4 ≤ (withHeader (headerBytes.take 4)).par.icap
    ∧ (withHeader (headerBytes.take 4)).imemBytes 0 4 = testParams.sigExpected.toList
    ∧ (withHeader [0x54#8, 0x43#8, 0x4D#8, 0x51#8]).imemBytes 0 4 ≠ testParams.sigExpected.toList := by decide

theorem witness_HdrparseResult :
    (withHeader (headerBytes.take 13)).ilen < 14 ∧ 14 ≤ (withHeader headerBytes).ilen
    ∧ 14 ≤ (withHeader headerBytes).par.icap
    ∧ leVal ((withHeader headerBytes).imemBytes 12 2) = 16
    ∧ leVal ((withHeader (headerBytes.take 12 ++ [0x0C#8, 0x00#8])).imemBytes 12 2) ≠ 16
    ∧ ({ withHeader headerBytes with par := { testParams with checkPaysize := true } } : State).par.checkPaysize = true
    ∧ (withHeader headerBytes).ilen - 14 < leVal ((withHeader headerBytes).imemBytes 4 4)
    ∧ leVal ((withHeader headerBytes).imemBytes 8 4) * (withHeader headerBytes).bps < 2 ^ 32
    ∧ 2 ^ 32 ≤ leVal ((withHeader (headerBytes.take 8 ++ [0#8, 0#8, 0#8, 0x80#8, 0x10#8, 0#8])).imemBytes 8 4) * 2 := by
  decide

theorem witness_DecodeResult :
    (({ withFile golden with cp := 16 } : State).cp : Int) = 2 * (((withFile golden).ilen : Int) - (withFile golden).poff)
    ∧ (({ withFile golden with cp := 15 } : State).cp : Int) < 2 * (((withFile golden).ilen : Int) - (withFile golden).poff)
    ∧ (withFile golden).poff + 15 / 2 < (withFile golden).par.icap
    ∧ CodeDefined { withFile golden with cp := 15, prec := 12 } := by
  refine ⟨by decide, by decide, by decide, ?_, ?_, ?_, ?_⟩ <;> decide

/-- The largest size and the largest rate, at one byte a sample. -/
theorem witness_HeaderFieldsReadBack :
    let s := withHeader (cmpHeader testParams.sigExpected (2 ^ 32 - 1) (2 ^ 32 - 1) 16)
    14 ≤ s.ilen ∧ 14 ≤ s.par.icap ∧ s.imemBytes 0 14 = cmpHeader s.par.sigExpected (2 ^ 32 - 1) (2 ^ 32 - 1) 16
    ∧ (2 ^ 32 - 1) * s.bps < 2 ^ 32 ∧ s.par.checkPaysize = false := by decide

theorem witness_FrontFrame :
    (completes .cfgchk (withFile golden) && completes .cfgchk { withFile golden with cfg := cfgOf .headerless 0#4 }
      && completes .sigchk (withHeader headerBytes) && completes .sigchk (withHeader golden)
      && completes .hdrparse (withHeader headerBytes) && completes .hdrparse (withHeader golden)
      && completes .decode { withFile golden with prec := 12 } && completes .decode { withFile golden with cp := 16 }) = true := by
  decide

theorem witness_SinkFrame :
    (completes .wavhdr (sinkState .wavhdr 18 0) && completes .wavhdr (sinkState .wavhdr 19 0)
      && completes .wavdata (sinkState .wavdata 18 78) && completes .wavdata { sinkState .wavdata 1 46 with sp := 1 }
      && completes .backfill (sinkState .backfill 18 80)) = true := by decide

theorem witness_WavhdrResult :
    (sinkState .wavhdr 19 0).par.ocap < 44 + (sinkState .wavhdr 19 0).nsamp * (sinkState .wavhdr 19 0).bps
    ∧ 44 + (sinkState .wavhdr 18 0).nsamp * (sinkState .wavhdr 18 0).bps ≤ (sinkState .wavhdr 18 0).par.ocap
    ∧ (sinkState .wavhdr 18 0).rate * (sinkState .wavhdr 18 0).bps < 2 ^ 32 := by decide

theorem witness_WavdataResult :
    let s := sinkState .wavdata 1 78
    s.sp < s.nsamp ∧ 1 ≤ s.prec ∧ s.prec ≤ 16 ∧ 1 ≤ s.bps ∧ s.olen + s.bps ≤ s.par.ocap
    ∧ (sinkState .wavdata 0 44).sp = (sinkState .wavdata 0 44).nsamp := by decide

theorem witness_BackfillResult :
    44 ≤ (sinkState .backfill 0 44).olen ∧ (sinkState .backfill 0 44).olen - 8 < 2 ^ 32
    ∧ 44 ≤ ({ sinkState .backfill 0 44 with par := { testParams with ocap := 44 } } : State).par.ocap := by decide

/-- The narrowest and the widest case of the normalizer's statements, and two samples in order. -/
theorem witness_norm_statements : 1 ≤ (1 : Nat) ∧ pcmNorm 0 1 1 = 127 ∧ pcmNorm (-1) 1 1 = -127 ∧ (-1 : Int) < 0 := by
  decide

theorem witness_commands :
    ([.idle, .done, .error] : List Phase).all (fun p => completes .start { doneState with phase := p }
      && completes .clear { doneState with phase := p }) = true
    ∧ (completes .start (sinkState .backfill 0 44) && completes .clear { doneState with phase := .cfgchk }) = true := by decide

/-- Every error is raised somewhere. -/
theorem witness_error_statements :
    ([ exec .cfgchk { withFile golden with cfg := cfgOf .headerless 5#4 },
       exec .cfgchk { withFile golden with ilen := 33 },
       exec .sigchk (withHeader (headerBytes.take 3)),
       exec .sigchk (withHeader golden),
       exec .hdrparse (withHeader (headerBytes.take 13)),
       exec .hdrparse (withHeader (headerBytes.take 12 ++ [0x0C#8, 0x00#8])),
       exec .hdrparse { withHeader headerBytes with par := { testParams with checkPaysize := true } },
       exec .hdrparse { withHeader (headerBytes.take 8 ++ [0#8, 0#8, 0#8, 0x40#8, 0x10#8, 0#8]) with
         cfg := cfgOf .header 4#4 },
       exec .wavhdr (sinkState .wavhdr 19 0) ] : List Out).map (fun o => (after o).map (fun t => (t.err, t.phase)))
    = [some (.cfgBps, .error), some (.cfgIlen, .error), some (.fmtTruncHeader, .error), some (.fmtSignature, .error),
       some (.fmtTruncHeader, .error), some (.fmtPrecision, .error), some (.fmtTruncPayload, .error),
       some (.fmtRange, .error), some (.ioFull, .error)] := by decide

theorem witness_StoppedPhasesHold :
    doneState.busy = false ∧ doneState.blockMoves = true ∧ steps doneState = true
    ∧ (after (step (withTurn (.writeReg 0 1#32) doneState))).map (fun t => t.phase) = some .cfgchk
    ∧ (after (step (withTurn (.writeReg 0 2#32) doneState))).map (fun t => t.phase) = some .idle
    ∧ (after (step (withTurn .reset doneState))).map (fun t => t.phase) = some .idle := by decide

theorem witness_RegisterReads :
    (withTurn (.readReg 14) doneState).agenda = .outside (.readReg 14) :: [] ∧ (withTurn (.readReg 14) doneState).busy = false
    ∧ (withTurn (.readReg 3) (sinkState .decode 0 0)).busy = true := by decide

theorem witness_RegisterWrites :
    (withTurn (.writeReg 1 0xFFFFFFFF#32) doneState).agenda = .outside (.writeReg 1 0xFFFFFFFF#32) :: []
    ∧ (withTurn (.writeReg 2 0xFFFFFFFF#32) doneState).busy = false ∧ (withTurn (.writeReg 3 1#32) doneState).busy = false := by
  decide

theorem witness_BusyBlockIgnoresWrites :
    (withTurn (.writeReg 0 1#32) (sinkState .decode 0 0)).busy = true
    ∧ (withTurn (.writeImem 0 0#8) (sinkState .decode 0 0)).agenda = .outside (.writeImem 0 0#8) :: [] := by decide

theorem witness_host_memory_statements :
    (steps (withTurn (.readReg 4) doneState) && steps (withTurn (.readWmem 63) doneState)
      && steps (withTurn (.readOmem 79) doneState) && steps (withTurn (.writeImem 31 0xFF#8) doneState)) = true
    ∧ faultOf (step (withTurn (.writeImem 32 0xFF#8) doneState)) = some .noSuchElement
    ∧ 15 < doneState.nsamp ∧ doneState.nsamp ≤ 16 ∧ 75 < doneState.olen ∧ doneState.olen ≤ 76 := by decide

theorem witness_ResetEvent : (withTurn .reset (sinkState .decode 3 0)).agenda = .outside .reset :: [] := rfl

theorem witness_owner_statements :
    (after (exec .p7 (codeState 0 0))).map (fun t => (t.wmem.length, t.idx, t.acc)) = some (1, 8, 2047)
    ∧ (after (exec .wavhdr (sinkState .wavhdr 0 0))).map (fun t => (t.omem.length, t.olen)) = some (44, 44)
    ∧ completes .cfgchk (withFile golden) = true := by decide

/-! The invariant holds of states in every part of a run, so the statements that assume it are about something. -/

/-- A block that is to convert a one-byte file. -/
def ready : State := withTurn (.writeReg 0 1#32) (withFile [0x21#8])

theorem ready_inv : BlockInv ready := by
  refine ⟨by decide, ?_, ?_, ⟨rfl, rfl⟩, rfl, rfl, rfl, rfl, rfl, rfl, rfl, rfl, rfl, rfl⟩ <;> constructor <;> decide

/-- The same with a header, and with no output width. -/
theorem ready_header_inv : BlockInv (withTurn (.writeReg 0 1#32) (withHeader headerBytes)) := by
  refine ⟨by decide, ?_, ?_, ⟨rfl, rfl⟩, rfl, rfl, rfl, rfl, rfl, rfl, rfl, rfl, rfl, rfl⟩ <;> constructor <;> decide

theorem witness_run_statements :
    ready.busy = false ∧ ready.agenda = [.outside (.writeReg 0 1#32)] ∧ verdict ready = none ∧ runLength ready = 9
    ∧ verdict (withTurn (.writeReg 0 1#32) (withHeader headerBytes)) = none
    ∧ runLength (withTurn (.writeReg 0 1#32) (withHeader headerBytes)) = 7
    ∧ verdict (withHeader golden) = some (.fmtSignature, 0x87654321)
    ∧ verdict { ready with cfg := cfgOf .headerless 0#4 } = some (.cfgBps, 0) := by decide

theorem witness_RunsForgetTheirPast : SameInputs ready ready ∧ SameInputs ready { ready with draws := 5, wmem := [(3, 7)] } :=
  ⟨⟨rfl, rfl, rfl, fun _ _ => rfl⟩, ⟨rfl, rfl, rfl, fun _ _ => rfl⟩⟩

/-- In phase DECODE with both codes of a byte to come. -/
def decoding : State := { withFile [0x21#8] with phase := .decode, rate := 22500, prec := 12 }

theorem witness_WaveformFollowsRecurrence :
    BlockInv decoding ∧ decoding.phase = .decode ∧ decoding.agenda = [] ∧ (decoding.cp : Int) + 2 ≤ decoding.codeCount := by
  refine ⟨⟨by decide, ?_, ?_, ⟨⟨rfl, rfl⟩, ?_, .inl ?_, ⟨rfl, ?_, ?_, ?_, ?_⟩, ?_⟩, ?_, rfl, rfl⟩, rfl, rfl, by decide⟩
  · constructor <;> decide
  · constructor <;> decide
  · exact ⟨by decide, by decide, by decide⟩
  · exact ⟨rfl, rfl, rfl, rfl, rfl⟩
  · decide
  · decide
  · decide
  · intro i hi; exact absurd hi (Nat.not_lt_zero i)
  · decide
  · decide

/-- In phase WAVDATA, one sample of two to go; its header bytes are in OMEM. -/
def exporting : State :=
  { withFile [0x21#8] with
    phase := .wavdata, rate := 22500, prec := 12, cp := 2, nsamp := 2, sp := 1, olen := 46
    wmem := [(0, -2048), (1, 2047)], omem := Memory.putAll [] 0 (List.replicate 46 0#8) }

theorem exporting_written : ∀ i : Fin 46, (Memory.look exporting.omem i.val).isSome = true := by decide

theorem exporting_stream : InStream exporting := by
  refine ⟨⟨rfl, rfl⟩, ⟨by decide, by decide, by decide⟩, .inl ⟨rfl, rfl, rfl, rfl, rfl⟩,
    ⟨rfl, by decide, by decide, by decide, ?_⟩, by decide⟩
  intro i hi
  match i, hi with
  | 0, _ => exact ⟨-2048, rfl, by decide, by decide⟩
  | 1, _ => exact ⟨2047, rfl, by decide, by decide⟩

theorem witness_NormClampIdleInRuns :
    BlockInv exporting ∧ exporting.phase = .wavdata ∧ exporting.sp < exporting.nsamp := by
  refine ⟨⟨by decide, ?_, ?_, exporting_stream, ?_, by decide, by decide, by decide, ?_⟩, rfl, by decide⟩
  · constructor <;> decide
  · constructor <;> decide
  · show (_ : Int) = _; decide
  · intro i hi; exact Option.isSome_iff_exists.mp (exporting_written ⟨i, hi⟩)

/-- An empty export about to be backfilled. -/
def finishing : State :=
  { withFile [] with
    phase := .backfill, rate := 22500, prec := 12, olen := 44, omem := Memory.putAll [] 0 (List.replicate 44 0#8) }

theorem finishing_written : ∀ i : Fin 44, (Memory.look finishing.omem i.val).isSome = true := by decide

theorem witness_FinishedExportSizes : BlockInv finishing ∧ finishing.phase = .backfill := by
  refine ⟨⟨by decide, ?_, ?_, ⟨⟨rfl, rfl⟩, ⟨by decide, by decide, by decide⟩, .inl ⟨rfl, rfl, rfl, rfl, rfl⟩,
    ⟨rfl, by decide, by decide, by decide, ?_⟩, by decide⟩, ?_, rfl, by decide, by decide, ?_⟩, rfl⟩
  · constructor <;> decide
  · constructor <;> decide
  · intro i hi; exact absurd hi (Nat.not_lt_zero i)
  · show (_ : Int) = _; decide
  · intro i hi; exact Option.isSome_iff_exists.mp (finishing_written ⟨i, hi⟩)

/-- The statements about a step from a state that meets the invariant. -/
theorem witness_step_statements :
    (steps ready && steps decoding && steps exporting && steps finishing) = true
    ∧ decoding.blockMoves = true ∧ exporting.blockMoves = true ∧ finishing.blockMoves = true := by decide

/-- In every phase the block's own step answers somewhere. -/
theorem witness_PhaseOrder :
    ([.idle, .cfgchk, .sigchk, .hdrparse, .decode, .wavhdr, .wavdata, .backfill, .done, .error] : List Phase).all
      (fun p => steps { sinkState p 1 46 with cfg := cfgOf .header 2#4 }) = true := by decide

end Sys2Proof.Tests
end

section
/-! PROOF. Where a primitive is not defined: for each meaning, the operands it lacks and the fault it then ends in
(00_scope.md R8, R9; log 12, log 21). The lemmas follow the order in which a meaning checks its operands. -/

namespace Sys2Proof.Machine

/-! ## The guards, refused -/

/-- No rule gives these precisions a meaning (10_state.md R36). -/
theorem prec_outside_iff (p : Nat) : ¬ (1 ≤ p ∧ p ≤ 16) ↔ p = 0 ∨ 16 < p := by omega

/-- A read of IMEM fails at the file's end or at the memory's (00_scope.md R9, log 21). -/
theorem not_imemReadable_iff (s : State) (a n : Nat) :
    ¬ s.imemReadable a n = true ↔ s.ilen < a + n ∨ s.par.icap < a + n := by
  rw [imemReadable_iff]; omega

/-! ## The codes -/

theorem emitSample_cursorOutOfTable {s : State} (d a : Int) (hidx : s.cfg.profile.length ≤ s.idx) :
    emitSample d a s = .fault .cursorOutOfTable :=
  if_pos (Nat.not_lt.mpr hidx)

theorem emitSample_precisionOutOfRange {s : State} (d a : Int) (hidx : s.idx < s.cfg.profile.length)
    (hprec : s.prec = 0 ∨ 16 < s.prec) : emitSample d a s = .fault .precisionOutOfRange := by
  rw [emitSample, if_neg (not_not_intro hidx), if_pos ((prec_outside_iff _).mpr hprec)]

theorem emitSample_wmemOutOfRange {s : State} (d a : Int) (hidx : s.idx < s.cfg.profile.length)
    (hprec : 1 ≤ s.prec ∧ s.prec ≤ 16) (hcp : s.par.wcap ≤ s.cp) : emitSample d a s = .fault .wmemOutOfRange := by
  rw [emitSample, if_neg (not_not_intro hidx), if_neg (not_not_intro hprec), if_pos (Nat.not_lt.mpr hcp)]

/-! ## The front end -/

theorem execSigchk_imemOutOfRange {s : State} (hlen : 4 ≤ s.ilen) (hcap : s.par.icap < 4) :
    execSigchk s = .fault .imemOutOfRange := by
  rw [execSigchk, if_neg (Nat.not_lt.mpr hlen), if_pos ((not_imemReadable_iff s 0 4).mpr (.inr hcap))]

theorem execHdrparse_imemOutOfRange {s : State} (hlen : 14 ≤ s.ilen) (hcap : s.par.icap < 14) :
    execHdrparse s = .fault .imemOutOfRange := by
  rw [execHdrparse, if_neg (Nat.not_lt.mpr hlen), if_pos ((not_imemReadable_iff s 4 10).mpr (.inr hcap))]

theorem execDecode_imemOutOfRange {s : State} (hcp : (s.cp : Int) ≠ s.codeCount)
    (hmem : s.ilen ≤ s.codeByteIndex ∨ s.par.icap ≤ s.codeByteIndex) : execDecode s = .fault .imemOutOfRange := by
  have hread : ¬ s.imemReadable s.codeByteIndex 1 = true :=
    (not_imemReadable_iff s _ 1).mpr (hmem.imp Nat.lt_succ_of_le Nat.lt_succ_of_le)
  rw [execDecode, if_neg hcp, if_pos hread]

/-! ## The serializer -/

theorem execWavhdr_fieldOutOfRange {s : State} (hroom : 44 + s.nsamp * s.bps ≤ s.par.ocap)
    (hfield : 2 ^ 32 ≤ s.rate ∨ 2 ^ 32 ≤ s.rate * s.bps) : execWavhdr s = .fault .fieldOutOfRange := by
  have hunfit : ¬ (s.rate < 2 ^ 32 ∧ s.rate * s.bps < 2 ^ 32) := by omega
  rw [execWavhdr, if_neg (Nat.not_lt.mpr hroom), if_pos hunfit]

theorem execWavdata_wmemOutOfRange {s : State} (hsp : s.nsamp < s.sp) : execWavdata s = .fault .wmemOutOfRange := by
  rw [execWavdata, if_neg (Nat.ne_of_gt hsp), if_pos (Nat.lt_asymm hsp)]

theorem execWavdata_precisionOutOfRange {s : State} (hsp : s.sp < s.nsamp) (hprec : s.prec = 0 ∨ 16 < s.prec) :
    execWavdata s = .fault .precisionOutOfRange := by
  rw [execWavdata, if_neg (Nat.ne_of_lt hsp), if_neg (not_not_intro hsp), if_pos ((prec_outside_iff _).mpr hprec)]

theorem execWavdata_widthOutOfRange {s : State} (hsp : s.sp < s.nsamp) (hprec : 1 ≤ s.prec ∧ s.prec ≤ 16)
    (hbps : s.bps = 0) : execWavdata s = .fault .widthOutOfRange := by
  rw [execWavdata, if_neg (Nat.ne_of_lt hsp), if_neg (not_not_intro hsp), if_neg (not_not_intro hprec), if_pos hbps]

theorem execWavdata_omemOutOfRange {s : State} (hsp : s.sp < s.nsamp) (hprec : 1 ≤ s.prec ∧ s.prec ≤ 16)
    (hbps : 1 ≤ s.bps) (hroom : s.par.ocap < s.olen + s.bps) : execWavdata s = .fault .omemOutOfRange := by
  rw [execWavdata, if_neg (Nat.ne_of_lt hsp), if_neg (not_not_intro hsp), if_neg (not_not_intro hprec),
    if_neg (Nat.ne_of_gt hbps), if_pos hroom]

theorem execBackfill_fieldOutOfRange {s : State} (holen : s.olen < 44 ∨ 2 ^ 32 ≤ s.olen - 8) :
    execBackfill s = .fault .fieldOutOfRange := by
  have hunfit : ¬ (44 ≤ s.olen ∧ s.olen - 8 < 2 ^ 32) := by omega
  rw [execBackfill, if_pos hunfit]

theorem execBackfill_omemOutOfRange {s : State} (holen : 44 ≤ s.olen ∧ s.olen - 8 < 2 ^ 32) (hcap : s.par.ocap < 44) :
    execBackfill s = .fault .omemOutOfRange := by
  rw [execBackfill, if_neg (not_not_intro holen), if_pos hcap]

/-! ## The statement -/

/-- Settles O12: each clause is the lemma of its meaning; a code is `emitSample` with a difference and an adjustment of
its own, and no check looks at either. -/
theorem undefinedOperandsStop : Obligations.UndefinedOperandsStop := by
  refine ⟨fun i s hcode => ?codes,
    fun _ hlen hcap => execSigchk_imemOutOfRange hlen hcap,
    fun _ hlen hcap => execHdrparse_imemOutOfRange hlen hcap,
    fun _ hcp hmem => execDecode_imemOutOfRange hcp hmem,
    fun _ hroom hfield => execWavhdr_fieldOutOfRange hroom hfield,
    fun _ hsp => execWavdata_wmemOutOfRange hsp,
    fun _ hsp hprec => execWavdata_precisionOutOfRange hsp hprec,
    fun _ hsp hlo hhi hbps => execWavdata_widthOutOfRange hsp ⟨hlo, hhi⟩ hbps,
    fun _ hsp hlo hhi hbps hroom => execWavdata_omemOutOfRange hsp ⟨hlo, hhi⟩ hbps hroom,
    fun _ holen => execBackfill_fieldOutOfRange holen,
    fun _ hlo hhi hcap => execBackfill_omemOutOfRange ⟨hlo, hhi⟩ hcap⟩
  case codes =>
    obtain ⟨d, a, hexec⟩ := exec_isCode i hcode s
    rw [hexec]
    exact ⟨fun hidx => emitSample_cursorOutOfTable d a hidx,
      fun hidx hprec => emitSample_precisionOutOfRange d a hidx hprec,
      fun hidx hlo hhi hcp => emitSample_wmemOutOfRange d a hidx ⟨hlo, hhi⟩ hcp⟩

end Sys2Proof.Machine
end

section
/-! PROOF. Every step keeps the invariant `BlockInv`. First what its parts are kept by, then one lemma for each operation of
PHASE, each command and each access of the outside, and the step assembled from them. -/

namespace Sys2Proof.Machine

/-! ## Memories: every element up to an index written, every index below a capacity -/

theorem Memory.putAll_range {α : Type} {m : Memory α} {a cap : Nat} {vs : List α} (hm : ∀ c, c ∈ m → c.1 < cap)
    (hfit : a + vs.length ≤ cap) : ∀ c, c ∈ Memory.putAll m a vs → c.1 < cap := by
  intro c hc
  rcases Memory.mem_putAll m a vs c hc with hin | hold
  · omega
  · exact hm c hold

/-- A field of OMEM whose bytes hold a 32-bit number reads as that number. -/
theorem leVal_omemBytes {s : State} {a v : Nat} (h : ∀ k, k < 4 → Memory.look s.omem (a + k) = (le 4 v)[k]?)
    (hv : v < 2 ^ 32) : leVal (s.omemBytes a 4) = v := by
  have hbytes : s.omemBytes a 4 = le 4 v := by
    refine List.ext_getElem? fun k => ?_
    by_cases hk : k < 4
    · have hsome : (le 4 v)[k]? = some (le 4 v)[k] := List.getElem?_eq_getElem (by simpa using hk)
      rw [omemBytes_get s a 4 k hk, State.omemAt, h k hk, hsome, Option.getD_some]
    · rw [List.getElem?_eq_none (by simpa using hk), List.getElem?_eq_none (by simpa using hk)]
  rw [hbytes, leVal_le]
  exact Nat.mod_eq_of_lt hv

/-! ## The parts of the invariant -/

theorem params_wf_iff (p : Params) : p.wf = true ↔ p.icap < 2 ^ 31 ∧ 44 ≤ p.ocap ∧ p.ocap < 2 ^ 32 := by
  simp [Params.wf, and_assoc]

/-- The register widths hold where the block's registers are all 0 (10_state.md R44). -/
theorem FreshRun.registersFit {s : State} (h : FreshRun s) (herrinfo : s.errinfo < 2 ^ 32) (hilen : s.ilen < 2 ^ 32) :
    RegistersFit s := by
  obtain ⟨hidx, hacc, hcp, hsp, hnsamp, holen, hrate, hprec, hpaysize, hpoff⟩ := h
  constructor <;> omega

/-- Both kinds of stream have metadata inside the registers and the WAV header's fields (10_state.md R36 to R38,
44_wav_sink.md R220), and a payload that starts inside the file. -/
theorem MetadataSet.ranges {s : State} (h : MetadataSet s) :
    s.rate < 2 ^ 32 ∧ (s.prec = 12 ∨ s.prec = 16) ∧ s.paysize < 2 ^ 32 ∧ (s.poff = 0 ∨ s.poff = 14)
      ∧ s.poff ≤ s.ilen := by
  rcases h with ⟨_, hrate, hprec, hpaysize, hpoff⟩ | ⟨_, hrate, _, hprec, hpaysize, hpoff, hlen⟩
  · have : Config.defRate < 2 ^ 32 := by decide
    have : Config.defPrec = 12 := rfl
    omega
  · omega

/-- No part of the invariant speaks of the agenda, of what the host has read or of how often. -/
theorem BlockInv.bookkeeping {s : State} (h : BlockInv s) (agenda : List Turn) (readback : Readback) (draws : Nat) :
    BlockInv { s with agenda := agenda, readback := readback, draws := draws } where
  params := h.params
  registers := { h.registers with }
  memories := { h.memories with }
  phase := h.phase

theorem BlockInv.popTurn {s : State} (h : BlockInv s) : BlockInv s.popTurn := h.bookkeeping _ _ _

/-- In IDLE, DONE and ERROR the phase's part does not speak of CFG, ILEN or IMEM (log 15). -/
theorem PhaseInv.hostWrite {s : State} (h : PhaseInv s) (hbusy : s.busy = false) (cfg : Cfg) (ilen : Nat)
    (imem : Memory Byte) : PhaseInv { s with cfg := cfg, ilen := ilen, imem := imem } := by
  rcases (not_busy_iff s).mp hbusy with hp | hp | hp <;>
  · simp only [PhaseInv, hp] at h ⊢
    exact h

/-- A run of bytes that ends inside OMEM keeps the memories' part of the invariant (20_memory.md R60). -/
theorem MemoriesFit.writeOmem {s : State} (h : MemoriesFit s) (a : Nat) (vs : List Byte)
    (hfit : a + vs.length ≤ s.par.ocap) : MemoriesFit { s with omem := Memory.putAll s.omem a vs } :=
  { h with
    omem_wf := Memory.putAll_wf s.omem a vs h.omem_wf
    omem_range := Memory.putAll_range h.omem_range hfit }

/-- Bytes written to OMEM keep every byte below OLEN written, and may raise OLEN over themselves (20_memory.md R63). -/
theorem OutputWritten.writeOmem {s : State} (h : OutputWritten s) (a : Nat) (vs : List Byte) (olen : Nat)
    (hcover : ∀ i, i < olen → i < s.olen ∨ (a ≤ i ∧ i < a + vs.length)) :
    OutputWritten { s with omem := Memory.putAll s.omem a vs, olen := olen } := by
  intro i hi
  rw [Memory.look_putAll]
  split
  · next hin => exact ⟨_, List.getElem?_eq_getElem (by omega)⟩
  · next hout => exact h i ((hcover i hi).resolve_right hout)

/-! ## Error entry -/

/-- An error of the front end is raised with the block's registers still 0 (60_exceptions.md R273). -/
theorem BlockInv.raiseFront {s : State} (h : BlockInv s) (hfresh : FreshRun s) {e : Err} {info : Nat}
    (hinfo : info < 2 ^ 32) (hsome : e ≠ .none) (hfront : e ≠ .ioFull) : BlockInv (raiseError e info s) :=
  have hfresh' : FreshRun (raiseError e info s) :=
    have ⟨hidx, hacc, hcp, hsp, hnsamp, _, hregs⟩ := hfresh
    ⟨hidx, hacc, hcp, hsp, hnsamp, rfl, hregs⟩
  { params := h.params
    registers := hfresh'.registersFit hinfo h.registers.ilen
    memories := { h.memories with }
    phase := ⟨rfl, .inr ⟨hsome, hfront, hfresh'⟩⟩ }

/-- A number read from `n <= 4` bytes of IMEM fits a register of 32 bits. -/
theorem leVal_imemBytes_lt (s : State) (a : Nat) {n : Nat} (hn : n ≤ 4) : leVal (s.imemBytes a n) < 2 ^ 32 := by
  calc leVal (s.imemBytes a n) < 256 ^ n := by simpa using leVal_lt (s.imemBytes a n)
    _ ≤ 256 ^ 4 := Nat.pow_le_pow_right (by decide) hn

/-! ## The front end -/

theorem WaveformSound.of_fresh {s : State} (hnsamp : s.nsamp = 0) (hcp : s.cp = 0) (hacc : s.acc = 0) :
    WaveformSound s := by
  have hpow : (1 : Int) ≤ 2 ^ (s.prec - 1) := Int.pow_pos (by decide)
  refine ⟨by omega, by omega, ?_, ?_, fun i hi => by omega⟩ <;> simp only [sampleMin, sampleMax] <;> omega

/-- The front end ends with the metadata set, nothing decoded yet and the cursor on the table's first entry
(42_cmp_source.md R180, R182). -/
theorem BlockInv.enterDecode {s : State} (h : BlockInv s) (hno : NoError s) (hfresh : FreshRun s) (hcfg : ConfigChecked s)
    {rate prec paysize poff : Nat}
    (hmeta : MetadataSet { s with rate := rate, prec := prec, paysize := paysize, poff := poff }) :
    BlockInv { s with rate := rate, prec := prec, paysize := paysize, poff := poff, phase := .decode } := by
  obtain ⟨hidx, hacc, hcp, hsp, hnsamp, holen, _⟩ := hfresh
  obtain ⟨hrate, hprec, hpaysize, hpoff, hpayload⟩ := hmeta.ranges
  refine ⟨h.params,
    { h.registers with rate := hrate, prec := .inr hprec, paysize := hpaysize, poff := hpoff }, { h.memories with },
    ⟨hno, hcfg, hmeta, .of_fresh hnsamp hcp hacc, ?cursor⟩, ?codes, hsp, holen⟩
  case cursor =>
    show s.idx < s.cfg.profile.length
    exact hidx ▸ length_pos s.cfg.profile
  case codes =>
    simp only [State.codeCount, hcp] at hpayload ⊢
    omega

theorem execCfgchk_keepsInv {s t : State} (h : BlockInv s) (hp : s.phase = .cfgchk) (hexec : execCfgchk s = .next t) :
    BlockInv t := by
  have hphase := h.phase
  rw [PhaseInv, hp] at hphase
  obtain ⟨hno, hfresh⟩ := hphase
  rcases execCfgchk_cases hexec with ⟨_, rfl⟩ | ⟨_, _, _, rfl⟩ | ⟨hcfg, hvar, rfl⟩ | ⟨hcfg, hvar, rfl⟩
  · exact h.raiseFront hfresh (by have := bps_lt s; omega) (by decide) (by decide)
  · exact h.raiseFront hfresh h.registers.ilen (by decide) (by decide)
  · exact ⟨h.params, { h.registers with }, { h.memories with }, hno, hfresh, hcfg, hvar⟩
  · exact h.enterDecode hno hfresh hcfg (.inl ⟨hvar, rfl, rfl, rfl, rfl⟩)

theorem execSigchk_keepsInv {s t : State} (h : BlockInv s) (hp : s.phase = .sigchk) (hexec : execSigchk s = .next t) :
    BlockInv t := by
  have hphase := h.phase
  rw [PhaseInv, hp] at hphase
  obtain ⟨hno, hfresh, hcfg, hvar⟩ := hphase
  rcases execSigchk_cases hexec with ⟨_, rfl⟩ | ⟨_, _, rfl⟩ | ⟨hlen, _, rfl⟩
  · exact h.raiseFront hfresh h.registers.ilen (by decide) (by decide)
  · exact h.raiseFront hfresh (leVal_imemBytes_lt s 0 (by decide)) (by decide) (by decide)
  · exact ⟨h.params, { h.registers with }, { h.memories with }, hno, hfresh, hcfg, hvar, hlen⟩

theorem execHdrparse_keepsInv {s t : State} (h : BlockInv s) (hp : s.phase = .hdrparse)
    (hexec : execHdrparse s = .next t) : BlockInv t := by
  have hphase := h.phase
  rw [PhaseInv, hp] at hphase
  obtain ⟨hno, hfresh, hcfg, hvar, _⟩ := hphase
  have hilen := h.registers.ilen
  have hfield (a : Nat) {n : Nat} (hn : n ≤ 4) := leVal_imemBytes_lt s a hn
  rcases execHdrparse_cases hexec with ⟨_, rfl⟩ | ⟨_, _, rfl⟩ | ⟨_, _, _, _, rfl⟩ | ⟨_, _, _, _, rfl⟩ |
    ⟨hlen, _, _, hbytes, rfl⟩
  · exact h.raiseFront hfresh hilen (by decide) (by decide)
  · exact h.raiseFront hfresh (hfield 12 (by decide)) (by decide) (by decide)
  · exact h.raiseFront hfresh (by omega) (by decide) (by decide)
  · exact h.raiseFront hfresh (hfield 8 (by decide)) (by decide) (by decide)
  · exact h.enterDecode hno hfresh hcfg
      (.inr ⟨hvar, hfield 8 (by decide), hbytes, rfl, hfield 4 (by decide), rfl, hlen⟩)

/-! ## The codes -/

theorem InStream.prec_bounds {s : State} (h : InStream s) : 1 ≤ s.prec ∧ s.prec ≤ 16 := by
  obtain ⟨_, _, hmeta, _⟩ := h
  obtain ⟨_, hprec, _⟩ := hmeta.ranges
  omega

/-- A code appends one sample inside the precision's range (41_adpcm_decoder.md R140, R144). -/
theorem WaveformSound.afterCode {s : State} (h : WaveformSound s) (hcp : s.cp < s.par.wcap) (d : Int) (j : Nat) :
    WaveformSound (afterCode d j s) := by
  obtain ⟨hnsamp, _, _, _, hwmem⟩ := h
  have hlo : sampleMin s.prec ≤ (Machine.afterCode d j s).acc := le_clampInt (sampleMin_le_sampleMax s.prec)
  have hhi : (Machine.afterCode d j s).acc ≤ sampleMax s.prec := clampInt_le (sampleMin_le_sampleMax s.prec)
  refine ⟨congrArg (· + 1) hnsamp, hcp, hlo, hhi, fun i hi => ?_⟩
  by_cases hlast : i = s.cp
  · exact ⟨_, hlast ▸ Memory.look_put_same s.wmem s.cp _, hlo, hhi⟩
  · obtain ⟨v, hv, hrange⟩ := hwmem i (by rw [afterCode_nsamp] at hi; omega)
    exact ⟨v, (Memory.look_put_other s.wmem s.cp i _ hlast).trans hv, hrange⟩

theorem InStream.afterCode {s : State} (h : InStream s) (hcp : s.cp < s.par.wcap) (d a : Int) :
    InStream (afterCode d (moveCursor s.cfg.profile.length s.idx a) s) :=
  have ⟨hno, hcfg, hmeta, hwave, _⟩ := h
  ⟨hno, hcfg, hmeta, hwave.afterCode hcp d _, moveCursor_lt _ _ a (length_pos _)⟩

/-- The accumulator of a stream fits its register and an element of WMEM (10_state.md R22, 20_memory.md R62). -/
theorem InStream.acc_fits {s : State} (h : InStream s) : -32768 ≤ s.acc ∧ s.acc ≤ 32767 := by
  have ⟨hmin, hmax⟩ := sample_fits h.prec_bounds.2
  obtain ⟨_, _, _, ⟨_, _, hlo, hhi, _⟩, _⟩ := h
  omega

theorem execDecode_keepsInv {s t : State} (h : BlockInv s) (hp : s.phase = .decode) (hexec : execDecode s = .next t) :
    BlockInv t := by
  have hphase := h.phase
  rw [PhaseInv, hp] at hphase
  obtain ⟨hstream, hcount, hsp, holen⟩ := hphase
  rcases execDecode_cases hexec with ⟨hend, rfl⟩ | ⟨hmore, _, ⟨_, _, _, hcp⟩, d, a, rfl⟩
  · exact ⟨h.params, { h.registers with }, { h.memories with }, hstream, hend, hsp, holen⟩
  · have ⟨hicap, _⟩ := (params_wf_iff s.par).mp h.params
    have hstream' := hstream.afterCode hcp d a
    have hacc := hstream'.acc_fits
    have ⟨_, _, _, ⟨hnsamp, hcap, _⟩, hcursor⟩ := hstream'
    have hcp' : (afterCode d (moveCursor s.cfg.profile.length s.idx a) s).cp < 2 ^ 32 := by
      rw [afterCode_par, Params.wcap] at hcap
      omega
    have hidx := Nat.lt_of_lt_of_le hcursor (length_le _)
    refine ⟨h.params, { h.registers with nsamp := hnsamp ▸ hcp', idx := hidx, acc := hacc, cp := hcp' },
      { h.memories with wmem_wf := Memory.put_wf _ _ _ h.memories.wmem_wf, wmem_range := fun c hc => ?range }, ?phase⟩
    case range =>
      rcases Memory.mem_put _ _ _ c hc with rfl | hold
      · exact ⟨hcp, hacc⟩
      · exact h.memories.wmem_range c hold
    case phase =>
      rw [PhaseInv, afterCode_phase, hp]
      refine ⟨hstream', ?_, hsp, holen⟩
      simp only [DecodeComplete, State.codeCount, afterCode_cp, afterCode_ilen, afterCode_poff] at hmore hcount ⊢
      omega

/-! ## The serializer -/

theorem execWavhdr_keepsInv {s t : State} (h : BlockInv s) (hp : s.phase = .wavhdr) (hexec : execWavhdr s = .next t) :
    BlockInv t := by
  have hphase := h.phase
  rw [PhaseInv, hp] at hphase
  obtain ⟨hstream, hend, hsp, holen⟩ := hphase
  have ⟨_, _, _, hwave, _⟩ := hstream
  rcases execWavhdr_cases hexec with ⟨_, rfl⟩ | ⟨hroom, _, _, rfl⟩
  · exact ⟨h.params, { h.registers with errinfo := h.registers.nsamp, olen := (by decide : 0 < 2 ^ 32) },
      { h.memories with }, rfl, .inl ⟨rfl, hwave, hsp⟩⟩
  · have hlen := wavHeader_length 0 0 s.rate s.bps
    have hmem := h.memories.writeOmem 0 (wavHeader 0 0 s.rate s.bps) (by omega)
    have hnone : OutputWritten s := fun i hi => by omega
    have hheader := hnone.writeOmem 0 (wavHeader 0 0 s.rate s.bps) 44 fun i hi => .inr (by omega)
    refine ⟨h.params, { h.registers with olen := ?olen, sp := ?sp }, { hmem with },
      hstream, hend, Nat.zero_le _, ?count, hroom, hheader⟩
    case olen => show 44 < 2 ^ 32; decide
    case sp => show 0 < 2 ^ 32; decide
    case count => show 44 = 44 + 0 * s.bps; omega

theorem execWavdata_keepsInv {s t : State} (h : BlockInv s) (hp : s.phase = .wavdata) (hexec : execWavdata s = .next t) :
    BlockInv t := by
  have hphase := h.phase
  rw [PhaseInv, hp] at hphase
  obtain ⟨hstream, hend, hsp, holen, hroom, hwritten⟩ := hphase
  rcases execWavdata_cases hexec with ⟨hlast, rfl⟩ | ⟨hmore, _, _, _, hfit, rfl⟩
  · rw [← hlast, ← holen] at hroom
    exact ⟨h.params, { h.registers with }, { h.memories with }, hstream, hend, hlast, hlast ▸ holen, hroom, hwritten⟩
  · have ⟨_, _, hocap⟩ := (params_wf_iff s.par).mp h.params
    have hlen := sampleBytes_length (s.wmemAt s.sp) s.prec s.bps
    have hmem := h.memories.writeOmem s.olen (sampleBytes (s.wmemAt s.sp) s.prec s.bps) (by omega)
    have hsample := hwritten.writeOmem s.olen (sampleBytes (s.wmemAt s.sp) s.prec s.bps) (s.olen + s.bps)
      fun i hi => by omega
    refine ⟨h.params,
      { h.registers with
        olen := Nat.lt_of_le_of_lt hfit hocap, sp := Nat.lt_of_le_of_lt hmore h.registers.nsamp },
      { hmem with }, ?phase⟩
    rw [PhaseInv, hp]
    refine ⟨hstream, hend, hmore, ?count, hroom, hsample⟩
    show s.olen + s.bps = 44 + (s.sp + 1) * s.bps
    rw [holen, Nat.succ_mul, Nat.add_assoc]

/-- What BACKFILL leaves is a finished file: its two size fields count what follows them (44_wav_sink.md R225, R226). -/
theorem execBackfill_exported {s t : State} (hexec : execBackfill s = .next t) (hbps : 1 ≤ s.bps ∧ s.bps ≤ Config.bMax)
    (hsp : s.sp = s.nsamp) (holen : s.olen = 44 + s.nsamp * s.bps) (hcap : s.olen ≤ s.par.ocap) : Exported t := by
  obtain ⟨_, hfield, _, rfl⟩ := execBackfill_cases hexec
  refine ⟨⟨s.bps, hbps.1, hbps.2, holen⟩, hcap, hsp, ?riff, ?data⟩
  case riff =>
    refine leVal_omemBytes (fun k hk => ?_) hfield
    rw [Memory.look_putAll_outside _ _ _ _ (by omega), Memory.look_putAll, le_length, if_pos (by omega),
      Nat.add_sub_cancel_left]
  case data =>
    refine leVal_omemBytes (fun k hk => ?_) (show s.olen - 44 < 2 ^ 32 by omega)
    rw [Memory.look_putAll, le_length, if_pos (by omega), Nat.add_sub_cancel_left]

theorem execBackfill_keepsInv {s t : State} (h : BlockInv s) (hp : s.phase = .backfill)
    (hexec : execBackfill s = .next t) : BlockInv t := by
  have hphase := h.phase
  rw [PhaseInv, hp] at hphase
  obtain ⟨⟨hno, ⟨hlo, hhi, _⟩, _, hwave, _⟩, _, hsp, holen, hcap, hwritten⟩ := hphase
  have hexported := execBackfill_exported hexec ⟨hlo, hhi⟩ hsp holen hcap
  obtain ⟨_, _, hocap, rfl⟩ := execBackfill_cases hexec
  have hlen (v : Nat) : (le 4 v).length = 4 := le_length 4 v
  have hriff := h.memories.writeOmem 4 (le 4 (s.olen - 8)) (by rw [hlen]; omega)
  have hdata := hriff.writeOmem 40 (le 4 (s.olen - 44)) (by rw [hlen]; exact hocap)
  have hwritten' := (hwritten.writeOmem 4 (le 4 (s.olen - 8)) s.olen fun _ => .inl).writeOmem 40
    (le 4 (s.olen - 44)) s.olen fun _ => .inl
  exact ⟨h.params, { h.registers with }, { hdata with }, hno, hwave, hexported, hwritten'⟩

/-! ## The commands -/

theorem BlockInv.clearRun {s : State} (h : BlockInv s) {p : Phase} (hp : p = .idle ∨ p = .cfgchk) :
    BlockInv (clearRun p s) :=
  have hfresh : FreshRun (Machine.clearRun p s) := ⟨rfl, rfl, rfl, rfl, rfl, rfl, rfl, rfl, rfl, rfl⟩
  { params := h.params
    registers := hfresh.registersFit (Nat.two_pow_pos 32) h.registers.ilen
    memories := { h.memories with }
    phase := by rcases hp with rfl | rfl <;> exact ⟨⟨rfl, rfl⟩, hfresh⟩ }

theorem execStart_keepsInv {s t : State} (h : BlockInv s) (hexec : execStart s = .next t) : BlockInv t := by
  rcases execStart_cases hexec with ⟨_, rfl⟩ | ⟨_, rfl⟩
  · exact h
  · exact h.clearRun (.inr rfl)

theorem execClear_keepsInv {s t : State} (h : BlockInv s) (hexec : execClear s = .next t) : BlockInv t := by
  rcases execClear_cases hexec with ⟨_, rfl⟩ | ⟨_, rfl⟩
  · exact h
  · exact h.clearRun (.inl rfl)

/-! ## The accesses of the outside -/

theorem writeReg_keepsInv {s : State} (h : BlockInv s) (n : Nat) (v : Word) : BlockInv (writeReg n v s) := by
  rcases writeReg_cases n v s with hsame | ⟨hbusy, _, hcfg⟩ | ⟨hbusy, _, hilen⟩
  · rwa [hsame]
  · rw [hcfg]
    exact ⟨h.params, { h.registers with }, { h.memories with }, h.phase.hostWrite hbusy _ _ _⟩
  · rw [hilen]
    exact ⟨h.params, { h.registers with ilen := v.isLt }, { h.memories with }, h.phase.hostWrite hbusy _ _ _⟩

theorem writeImem_keepsInv {i : Nat} {b : Byte} {s t : State} (h : BlockInv s) (hwrite : writeImem i b s = .next t) :
    BlockInv t := by
  obtain ⟨hbusy, hi, rfl⟩ := writeImem_cases hwrite
  refine ⟨h.params, { h.registers with },
    { h.memories with imem_wf := Memory.put_wf _ _ _ h.memories.imem_wf, imem_range := fun c hc => ?range },
    h.phase.hostWrite hbusy _ _ _⟩
  rcases Memory.mem_put _ _ _ c hc with rfl | hold
  · exact hi
  · exact h.memories.imem_range c hold

theorem freshRun_resetOf (p : Params) : FreshRun (State.resetOf p) :=
  ⟨rfl, rfl, rfl, rfl, rfl, rfl, rfl, rfl, rfl, rfl⟩

/-- Reset establishes the invariant whatever it finds (70_reset_and_hazards.md R310); no part of it speaks of the
model's own fields. -/
theorem blockInv_resetOf {p : Params} (h : p.wf = true) : BlockInv (State.resetOf p) where
  params := h
  registers := (freshRun_resetOf p).registersFit (Nat.two_pow_pos 32) (Nat.two_pow_pos 32)
  memories :=
    have ⟨himem, hwmem, homem⟩ := Memory.resetOf_wf p
    ⟨himem, hwmem, homem, by simp [State.resetOf], by simp [State.resetOf], by simp [State.resetOf]⟩
  phase := ⟨⟨rfl, rfl⟩, freshRun_resetOf p⟩

theorem BlockInv.resetEvent {s : State} (h : BlockInv s) : BlockInv (resetEvent s) :=
  have hreset := blockInv_resetOf h.params
  ⟨h.params, { hreset.registers with }, { hreset.memories with }, hreset.phase⟩

/-! ## The step -/

/-- The operation that PHASE selects keeps the invariant. -/
theorem operation_keepsInv {s t : State} {i : Instr} (h : BlockInv s) (hop : s.phase.operation = some i)
    (hexec : exec i s = .next t) : BlockInv t := by
  cases hp : s.phase <;> rw [hp] at hop <;> cases hop
  case cfgchk => exact execCfgchk_keepsInv h hp hexec
  case sigchk => exact execSigchk_keepsInv h hp hexec
  case hdrparse => exact execHdrparse_keepsInv h hp hexec
  case decode => exact execDecode_keepsInv h hp hexec
  case wavhdr => exact execWavhdr_keepsInv h hp hexec
  case wavdata => exact execWavdata_keepsInv h hp hexec
  case backfill => exact execBackfill_keepsInv h hp hexec

/-- Settles O54: a step is an operation of the block, a pause or an access of the outside, and each keeps the invariant. -/
theorem stepKeepsInv : Obligations.StepKeepsInv := by
  intro s t hinv hstep
  have h := hinv.popTurn
  rcases step_cases hstep with ⟨_, i, hop, hexec⟩ | ⟨_, _, rfl⟩ | ⟨a, r, _, haccess⟩
  · exact operation_keepsInv h hop hexec
  · exact h
  · rcases haccess with ⟨v, _, hstart | hclear | rfl⟩ | ⟨n, v, _, _, rfl⟩ | ⟨n, _, rfl⟩ | ⟨i, b, _, himem⟩ |
      ⟨i, _, hwmem⟩ | ⟨i, _, homem⟩ | ⟨_, rfl⟩
    · exact execStart_keepsInv h hstart
    · exact execClear_keepsInv h hclear
    · exact h
    · exact writeReg_keepsInv h n v
    · obtain ⟨readback, draws, hread⟩ := readReg_cases n s.popTurn
      exact hread ▸ h.bookkeeping _ readback draws
    · exact writeImem_keepsInv h himem
    · obtain ⟨_, readback, draws, rfl⟩ := readWmem_cases hwmem
      exact h.bookkeeping _ readback draws
    · obtain ⟨_, readback, draws, rfl⟩ := readOmem_cases homem
      exact h.bookkeeping _ readback draws
    · exact h.resetEvent

end Sys2Proof.Machine
end

section
/-! PROOF. What the instructions change: an inversion of `exec` over the rows of the opcode table, and from it the frame of
the host's side and the owners of the registers. -/

namespace Sys2Proof.Machine

/-- What an instruction that answers a next state has done: the shared operation of the codes, or the one meaning that is
its own. -/
theorem exec_cases {i : Instr} {s t : State} (h : exec i s = .next t) :
    (isCode i = true ∧ ∃ d j, t = afterCode d j s)
    ∨ (i = .start ∧ execStart s = .next t)
    ∨ (i = .clear ∧ execClear s = .next t)
    ∨ (i = .cfgchk ∧ execCfgchk s = .next t)
    ∨ (i = .sigchk ∧ execSigchk s = .next t)
    ∨ (i = .hdrparse ∧ execHdrparse s = .next t)
    ∨ (i = .decode ∧ execDecode s = .next t)
    ∨ (i = .wavhdr ∧ execWavhdr s = .next t)
    ∨ (i = .wavdata ∧ execWavdata s = .next t)
    ∨ (i = .backfill ∧ execBackfill s = .next t) := by
  by_cases hcode : isCode i = true
  · obtain ⟨d, a, hemit⟩ := exec_isCode i hcode s
    rw [hemit, emitSample_next_iff] at h
    exact .inl ⟨hcode, d, _, h.2⟩
  · refine .inr ?_
    cases i <;> simp [isCode] at hcode
    all_goals simpa [exec] using h

/-! ## The host's side -/

/-- Neither what the host and the builder set nor a byte of IMEM is touched. -/
def HostSideKept (s t : State) : Prop := HostSideAsBefore s t ∧ t.imem = s.imem

/-- Whatever registers, memories of the block and phase an update writes: of the host's side it gives `s` back. -/
theorem HostSideKept.refl (s : State) : HostSideKept s s := ⟨⟨rfl, rfl, rfl, rfl, rfl, rfl, rfl⟩, rfl⟩

/-- Settles O56: in every case of every meaning the next state is an update of fields that are none of the host's. -/
theorem runConfigurationConstant : Obligations.RunConfigurationConstant := by
  intro i s t hexec
  change HostSideKept s t
  rcases exec_cases hexec with ⟨_, d, j, rfl⟩ | ⟨_, h⟩ | ⟨_, h⟩ | ⟨_, h⟩ | ⟨_, h⟩ | ⟨_, h⟩ | ⟨_, h⟩ | ⟨_, h⟩ | ⟨_, h⟩ | ⟨_, h⟩
  · exact .refl s
  · rcases execStart_cases h with ⟨_, rfl⟩ | ⟨_, rfl⟩ <;> exact .refl _
  · rcases execClear_cases h with ⟨_, rfl⟩ | ⟨_, rfl⟩ <;> exact .refl _
  · rcases execCfgchk_cases h with ⟨_, rfl⟩ | ⟨_, _, _, rfl⟩ | ⟨_, _, rfl⟩ | ⟨_, _, rfl⟩ <;> exact .refl s
  · rcases execSigchk_cases h with ⟨_, rfl⟩ | ⟨_, _, rfl⟩ | ⟨_, _, rfl⟩ <;> exact .refl s
  · rcases execHdrparse_cases h with ⟨_, rfl⟩ | ⟨_, _, rfl⟩ | ⟨_, _, _, _, rfl⟩ | ⟨_, _, _, _, rfl⟩ | ⟨_, _, _, _, rfl⟩ <;>
      exact .refl s
  · rcases execDecode_cases h with ⟨_, rfl⟩ | ⟨_, _, _, d, a, rfl⟩ <;> exact .refl s
  · rcases execWavhdr_cases h with ⟨_, rfl⟩ | ⟨_, _, _, rfl⟩ <;> exact .refl s
  · rcases execWavdata_cases h with ⟨_, rfl⟩ | ⟨_, _, _, _, _, rfl⟩ <;> exact .refl s
  · obtain ⟨_, _, _, rfl⟩ := execBackfill_cases h
    exact .refl s

/-! ## The registers' owners -/

/-- Settles O58: in each case of each meaning a register either is as before or the meaning is one of its owners. -/
theorem registerOwners : Obligations.RegisterOwners := by
  intro i s t hexec hstart hclear
  rcases exec_cases hexec with ⟨hcode, d, j, rfl⟩ | ⟨hi, _⟩ | ⟨hi, _⟩ | ⟨rfl, h⟩ | ⟨rfl, h⟩ | ⟨rfl, h⟩ | ⟨rfl, h⟩ |
    ⟨rfl, h⟩ | ⟨rfl, h⟩ | ⟨rfl, h⟩
  · simp [hcode]
  · exact absurd hi hstart
  · exact absurd hi hclear
  · rcases execCfgchk_cases h with ⟨_, rfl⟩ | ⟨_, _, _, rfl⟩ | ⟨_, _, rfl⟩ | ⟨_, _, rfl⟩ <;> simp
  · rcases execSigchk_cases h with ⟨_, rfl⟩ | ⟨_, _, rfl⟩ | ⟨_, _, rfl⟩ <;> simp
  · rcases execHdrparse_cases h with ⟨_, rfl⟩ | ⟨_, _, rfl⟩ | ⟨_, _, _, _, rfl⟩ | ⟨_, _, _, _, rfl⟩ | ⟨_, _, _, _, rfl⟩ <;>
      simp
  · rcases execDecode_cases h with ⟨_, rfl⟩ | ⟨_, _, _, d, a, rfl⟩ <;> simp
  · rcases execWavhdr_cases h with ⟨_, rfl⟩ | ⟨_, _, _, rfl⟩ <;> simp
  · rcases execWavdata_cases h with ⟨_, rfl⟩ | ⟨_, _, _, _, _, rfl⟩ <;> simp
  · obtain ⟨_, _, _, rfl⟩ := execBackfill_cases h
    simp

end Sys2Proof.Machine
end

section
/-! PROOF. The block's turn: the step runs the operation of PHASE, and the phases follow each other in their order. -/

namespace Sys2Proof.Machine

theorem decode_phase_iff (p : Phase) (i : Instr) : decode (.phase p.number) = .ok i ↔ p.operation = some i := by
  rw [decode, decodePhase_number]
  cases p.operation <;> simp

theorem step_of_operation {s : State} {i : Instr} (hblock : s.blockMoves = true) (hop : s.phase.operation = some i) :
    step s = exec i s.popTurn := by
  rw [step_block s hblock, hop]

theorem step_of_no_operation {s : State} (hblock : s.blockMoves = true) (hop : s.phase.operation = none) :
    step s = .next s.popTurn := by
  rw [step_block s hblock, hop]

/-- Settles O5: the ten phases by whether they have an operation. -/
theorem stepRunsSelectedOperation : Obligations.StepRunsSelectedOperation := by
  intro s hblock
  have hrun {p : Phase} {i : Instr} (hop : p.operation = some i) (hp : s.phase = p) : step s = exec i s.popTurn :=
    step_of_operation hblock (hp ▸ hop)
  refine ⟨fun i hi => hrun ((decode_phase_iff _ i).mp hi) rfl, hrun rfl, hrun rfl, hrun rfl, hrun rfl, hrun rfl,
    hrun rfl, hrun rfl, fun hp => step_of_no_operation hblock ?_⟩
  rcases hp with hp | hp | hp <;> rw [hp] <;> rfl

/-! ## Where each operation goes -/

theorem execCfgchk_phase {s t : State} (h : execCfgchk s = .next t) :
    t.phase = .error ∨ (s.cfg.variant = .header ∧ t.phase = .sigchk)
      ∨ (s.cfg.variant = .headerless ∧ t.phase = .decode) := by
  rcases execCfgchk_cases h with ⟨_, rfl⟩ | ⟨_, _, _, rfl⟩ | ⟨_, hvar, rfl⟩ | ⟨_, hvar, rfl⟩
  · exact .inl rfl
  · exact .inl rfl
  · exact .inr (.inl ⟨hvar, rfl⟩)
  · exact .inr (.inr ⟨hvar, rfl⟩)

theorem execSigchk_phase {s t : State} (h : execSigchk s = .next t) : t.phase = .error ∨ t.phase = .hdrparse := by
  rcases execSigchk_cases h with ⟨_, rfl⟩ | ⟨_, _, rfl⟩ | ⟨_, _, rfl⟩
  · exact .inl rfl
  · exact .inl rfl
  · exact .inr rfl

theorem execHdrparse_phase {s t : State} (h : execHdrparse s = .next t) : t.phase = .error ∨ t.phase = .decode := by
  rcases execHdrparse_cases h with ⟨_, rfl⟩ | ⟨_, _, rfl⟩ | ⟨_, _, _, _, rfl⟩ | ⟨_, _, _, _, rfl⟩ | ⟨_, _, _, _, rfl⟩
  · exact .inl rfl
  · exact .inl rfl
  · exact .inl rfl
  · exact .inl rfl
  · exact .inr rfl

theorem execDecode_phase {s t : State} (hp : s.phase = .decode) (h : execDecode s = .next t) :
    t.phase = .decode ∨ t.phase = .wavhdr := by
  rcases execDecode_cases h with ⟨_, rfl⟩ | ⟨_, _, _, d, a, rfl⟩
  · exact .inr rfl
  · exact .inl hp

theorem execWavhdr_phase {s t : State} (h : execWavhdr s = .next t) : t.phase = .error ∨ t.phase = .wavdata := by
  rcases execWavhdr_cases h with ⟨_, rfl⟩ | ⟨_, _, _, rfl⟩
  · exact .inl rfl
  · exact .inr rfl

theorem execWavdata_phase {s t : State} (hp : s.phase = .wavdata) (h : execWavdata s = .next t) :
    t.phase = .wavdata ∨ t.phase = .backfill := by
  rcases execWavdata_cases h with ⟨_, rfl⟩ | ⟨_, _, _, _, _, rfl⟩
  · exact .inr rfl
  · exact .inl hp

theorem execBackfill_phase {s t : State} (h : execBackfill s = .next t) : t.phase = .done := by
  obtain ⟨_, _, _, rfl⟩ := execBackfill_cases h
  rfl

/-- Settles O59: a phase with an operation goes where that operation goes, one without stays. -/
theorem phaseOrder : Obligations.PhaseOrder := by
  refine ⟨by decide, fun s t hblock hstep => ?_⟩
  have hrun {p : Phase} (i : Instr) (hop : p.operation = some i) (hp : s.phase = p) : exec i s.popTurn = .next t :=
    (step_of_operation hblock (hp ▸ hop)).symm.trans hstep
  have hstay {p : Phase} (hop : p.operation = none) (hp : s.phase = p) : t.phase = p := by
    rw [step_of_no_operation hblock (hp ▸ hop)] at hstep
    cases hstep
    exact hp
  exact ⟨hstay rfl,
    fun hp => execCfgchk_phase (s := s.popTurn) (hrun .cfgchk rfl hp),
    fun hp => execSigchk_phase (hrun .sigchk rfl hp),
    fun hp => execHdrparse_phase (hrun .hdrparse rfl hp),
    fun hp => execDecode_phase (s := s.popTurn) hp (hrun .decode rfl hp),
    fun hp => execWavhdr_phase (hrun .wavhdr rfl hp),
    fun hp => execWavdata_phase (s := s.popTurn) hp (hrun .wavdata rfl hp),
    fun hp => execBackfill_phase (hrun .backfill rfl hp),
    hstay rfl, hstay rfl⟩

end Sys2Proof.Machine
end

section
/-! PROOF. The host's accesses to the registers: commands, STATUS, reads and writes, and the state after reset. -/

namespace Sys2Proof.Machine

/-- Settles O53: `State.reset` is the state after reset of one legal choice of the parameters. -/
theorem invHoldsAtReset : Obligations.InvHoldsAtReset :=
  ⟨fun _ h => blockInv_resetOf h, blockInv_resetOf (by decide)⟩

theorem popTurn_eq {s : State} {a : Turn} {rest : List Turn} (h : s.agenda = a :: rest) :
    s.popTurn = { s with agenda := rest } := by
  rw [State.popTurn, h, List.tail_cons]

/-- Settles O7: the words of CMD are START's, CLEAR's and the reserved ones. -/
theorem commandWriteRunsCommand : Obligations.CommandWriteRunsCommand := by
  intro s v rest h
  rw [step_command s v rest h, popTurn_eq h]
  refine ⟨fun i hi => ?decoded, fun hstart hclear => ?reserved⟩
  case decoded =>
    rw [decode] at hi
    rw [hi]
  case reserved =>
    rcases decodeCommand_cases v with ⟨hv, _⟩ | ⟨hv, _⟩ | ⟨_, _, hv⟩
    · exact absurd hv hstart
    · exact absurd hv hclear
    · rw [hv]

/-! ## STATUS -/

theorem statusWord_toNat (s : State) :
    s.statusWord.toNat
      = s.phase.number.toNat + 2 ^ 8 * s.err.number.toNat + 2 ^ 12 * (if s.busy then 1 else 0) := by
  have hphase := s.phase.number.isLt
  have herr := s.err.number.isLt
  rw [State.statusWord, BitVec.toNat_ofNat]
  apply Nat.mod_eq_of_lt
  split <;> omega

/-- Settles O46: STATUS is a sum of numbers that share no bit. -/
theorem statusLayout : Obligations.StatusLayout := by
  intro s
  have hphase := s.phase.number.isLt
  have herr := s.err.number.isLt
  have hword := statusWord_toNat s
  refine ⟨?phase, ?low, ?err, ?busy, ?high, by simp [State.busy]⟩
  case busy =>
    rw [← BitVec.testBit_toNat, Nat.testBit_eq_decide_div_mod_eq]
    cases hb : s.busy <;> simp [hb] at hword ⊢ <;> omega
  all_goals
    apply BitVec.eq_of_toNat_eq
    rw [BitVec.extractLsb'_toNat, Nat.shiftRight_eq_div_pow]
    split at hword <;> simp <;> omega

/-! ## Reads -/

/-- The register map as a list, register 0 first (10_state.md R27); what lies beyond it is reserved and reads 0 (R29). -/
def State.registerMap (s : State) : List Word :=
  [0#32, s.cfg.toWord, BitVec.ofNat 32 s.ilen,
   BitVec.ofNat 32 (s.phase.number.toNat + 256 * s.err.number.toNat + (if s.busy then 4096 else 0)),
   BitVec.ofNat 32 s.errinfo, BitVec.ofNat 32 s.nsamp, BitVec.ofNat 32 s.olen, BitVec.ofNat 32 s.rate,
   BitVec.ofNat 32 s.prec, BitVec.ofNat 32 s.paysize, BitVec.ofNat 32 s.poff, BitVec.ofNat 32 s.idx,
   BitVec.ofInt 32 s.acc, BitVec.ofNat 32 s.cp, BitVec.ofNat 32 s.sp]

theorem regValue_eq_registerMap (s : State) (n : Nat) : s.regValue n = s.registerMap.getD n 0#32 := by
  match n with
  | 0 | 1 | 2 | 4 | 5 | 6 | 7 | 8 | 9 | 10 | 11 | 12 | 13 | 14 => rfl
  | 3 =>
    have hbusy : 2 ^ 12 * (if s.busy then 1 else 0) = if s.busy then 4096 else 0 := by
      cases s.busy <;> rfl
    exact congrArg (fun b => BitVec.ofNat 32 (s.phase.number.toNat + 256 * s.err.number.toNat + b)) hbusy
  | n + 15 => rfl

theorem exactWhileBusy_iff (n : Nat) : exactWhileBusy n = true ↔ n ≤ 3 ∨ 15 ≤ n := by
  simp [exactWhileBusy]

theorem readReg_exact {n : Nat} {s : State} (h : s.busy = false ∨ exactWhileBusy n = true) :
    readReg n s = { s with readback := .word (s.regValue n) } := by
  rcases h with h | h <;> simp [readReg, h]

theorem readReg_moving {n : Nat} {s : State} (hbusy : s.busy = true) (hn : exactWhileBusy n = false) :
    readReg n s = { s with readback := .word (Config.anyWord s.draws), draws := s.draws + 1 } := by
  simp [readReg, hbusy, hn]

theorem step_readReg {s : State} {n : Nat} {rest : List Turn} (h : s.agenda = .outside (.readReg n) :: rest) :
    step s = .next (readReg n s.popTurn) := by
  rw [step_outside s _ rest h]
  rfl

/-- Settles O45: the two cases of a register read, exact by the register map or a free value. -/
theorem registerReads : Obligations.RegisterReads := by
  intro s n rest h
  rw [step_readReg h]
  refine ⟨fun hexact => ?exact, fun hbusy hlo hhi => ?moving⟩
  case exact =>
    rw [readReg_exact (s := s.popTurn) (hexact.imp_right (exactWhileBusy_iff n).mpr), regValue_eq_registerMap,
      popTurn_eq h]
    rfl
  case moving =>
    have hn : exactWhileBusy n = false := by
      rw [Bool.eq_false_iff, Ne, exactWhileBusy_iff]
      omega
    rw [readReg_moving (s := s.popTurn) hbusy hn, popTurn_eq h]

/-! ## Writes -/

theorem writeReg_of_busy {s : State} (hbusy : s.busy = true) (n : Nat) (v : Word) : writeReg n v s = s :=
  if_pos hbusy

theorem writeReg_cfg {s : State} (hbusy : s.busy = false) (v : Word) :
    writeReg 1 v s = { s with cfg := Cfg.ofWord v } := by
  simp [writeReg, hbusy]

theorem writeReg_ilen {s : State} (hbusy : s.busy = false) (v : Word) :
    writeReg 2 v s = { s with ilen := v.toNat } := by
  simp [writeReg, hbusy]

/-- Registers from STATUS on are read only (10_state.md R27). -/
theorem writeReg_readOnly {s : State} {n : Nat} (hn : 3 ≤ n) (v : Word) : writeReg n v s = s := by
  rcases writeReg_cases n v s with hsame | ⟨_, h1, _⟩ | ⟨_, h2, _⟩
  · exact hsame
  · omega
  · omega

theorem step_writeReg {s : State} {n : Nat} {v : Word} {rest : List Turn} (hn : n ≠ 0)
    (h : s.agenda = .outside (.writeReg n v) :: rest) : step s = .next (writeReg n v s.popTurn) := by
  rw [step_outside s _ rest h]
  obtain ⟨m, rfl⟩ := Nat.exists_eq_succ_of_ne_zero hn
  rfl

/-- `0xF7` keeps the three choices of CFG and the four bits of BPS (10_state.md R31). -/
theorem and_cfgMask (n : Nat) : n &&& 0xF7 = n % 2 + 2 * (n / 2 % 2) + 4 * (n / 4 % 2) + 16 * (n / 16 % 16) := by
  have hhigh : (n &&& 0xF7) / 2 ^ 4 = n / 2 ^ 4 % 2 ^ 4 := by
    rw [Nat.and_div_two_pow]
    exact Nat.and_two_pow_sub_one_eq_mod _ 4
  have hlow : (n &&& 0xF7) % 2 ^ 4 = n % 2 ^ 4 % 2 ^ 3 := by
    rw [Nat.and_mod_two_pow]
    exact Nat.and_two_pow_sub_one_eq_mod _ 3
  omega

theorem toWord_ofWord_eq_sum (v : Word) :
    (Cfg.ofWord v).toWord = BitVec.ofNat 32 ((v.getLsbD 0).toNat + 2 * (v.getLsbD 1).toNat + 4 * (v.getLsbD 2).toNat
      + 16 * (v.extractLsb' 4 4).toNat) := by
  unfold Cfg.toWord Cfg.ofWord pick
  cases v.getLsbD 0 <;> cases v.getLsbD 1 <;> cases v.getLsbD 2 <;> rfl

/-- CFG reads back what was written, its reserved bits 0 (10_state.md R29, R31). -/
theorem toWord_ofWord (v : Word) : (Cfg.ofWord v).toWord = v &&& 0x000000F7#32 := by
  have hbit (k : Nat) : (v.getLsbD k).toNat = v.toNat / 2 ^ k % 2 := Nat.toNat_testBit v.toNat k
  have hbps : (v.extractLsb' 4 4).toNat = v.toNat / 16 % 16 := by
    rw [BitVec.extractLsb'_toNat, Nat.shiftRight_eq_div_pow]
  have hmask : (v &&& 0x000000F7#32).toNat = v.toNat &&& 0xF7 := rfl
  apply BitVec.eq_of_toNat_eq
  rw [toWord_ofWord_eq_sum, hbit, hbit, hbit, hbps, hmask, and_cfgMask, BitVec.toNat_ofNat, Nat.mod_eq_of_lt (by omega)]
  omega

/-- Settles O47: CFG and ILEN take the word written, every register from STATUS on is read only. -/
theorem registerWrites : Obligations.RegisterWrites := by
  intro s n v rest h hbusy
  refine ⟨?cfg, ?readBack, ?ilen, fun hn => ?readOnly⟩
  case cfg =>
    rintro rfl
    rw [step_writeReg (by decide) h, writeReg_cfg (s := s.popTurn) hbusy, popTurn_eq h]
    rfl
  case readBack =>
    rintro rfl
    rw [step_writeReg (by decide) h, writeReg_cfg (s := s.popTurn) hbusy]
    exact ⟨_, rfl, toWord_ofWord v⟩
  case ilen =>
    rintro rfl
    rw [step_writeReg (by decide) h, writeReg_ilen (s := s.popTurn) hbusy, popTurn_eq h]
  case readOnly => rw [step_writeReg (by omega) h, writeReg_readOnly hn, popTurn_eq h]

/-- A word written to CMD while the block is busy is ignored, whatever it is (10_state.md R28). -/
theorem step_command_of_busy {s : State} {v : Word} {rest : List Turn} (hbusy : s.busy = true)
    (h : s.agenda = .outside (.writeReg 0 v) :: rest) : step s = .next { s with agenda := rest } := by
  rw [step_command s v rest h, popTurn_eq h]
  rcases decodeCommand_cases v with ⟨_, hv⟩ | ⟨_, hv⟩ | ⟨_, _, hv⟩ <;> rw [hv]
  · exact if_pos hbusy
  · exact if_pos hbusy

/-- Settles O48: CMD by its decoder, the other registers by `writeReg`, IMEM by its refusal. -/
theorem busyBlockIgnoresWrites : Obligations.BusyBlockIgnoresWrites := by
  refine fun s rest hbusy => ⟨fun n v h => ?register, fun i b h => ?imem⟩
  case register =>
    by_cases hn : n = 0
    · subst hn
      exact step_command_of_busy hbusy h
    · rw [step_writeReg hn h, writeReg_of_busy (s := s.popTurn) hbusy, popTurn_eq h]
  case imem =>
    rw [step_outside s _ rest h]
    exact if_pos hbusy

end Sys2Proof.Machine
end

section
/-! PROOF. The block never stops: under the invariant every operation of PHASE finds its operands defined
(00_scope.md R8, R9). First the front end and DECODE, then the serializer, and the block's turn assembled from them. -/

namespace Sys2Proof.Machine

/-! ## The front end -/

theorem execCfgchk_completes (s : State) : ∃ t, execCfgchk s = .next t := by
  unfold execCfgchk
  split
  · exact ⟨_, rfl⟩
  · split
    · exact ⟨_, rfl⟩
    · split <;> exact ⟨_, rfl⟩

theorem execSigchk_completes {s : State} (hcap : s.ilen ≤ s.par.icap) : ∃ t, execSigchk s = .next t := by
  unfold execSigchk
  split
  · exact ⟨_, rfl⟩
  · next hlen =>
    have hread : s.imemReadable 0 4 = true := (imemReadable_iff s 0 4).mpr (by omega)
    rw [if_neg (not_not_intro hread)]
    dsimp only
    split <;> exact ⟨_, rfl⟩

theorem execHdrparse_completes {s : State} (hcap : s.ilen ≤ s.par.icap) : ∃ t, execHdrparse s = .next t := by
  unfold execHdrparse
  split
  · exact ⟨_, rfl⟩
  · next hlen =>
    have hread : s.imemReadable 4 10 = true := (imemReadable_iff s 4 10).mpr (by omega)
    rw [if_neg (not_not_intro hread)]
    dsimp only
    split
    · exact ⟨_, rfl⟩
    · split
      · exact ⟨_, rfl⟩
      · split <;> exact ⟨_, rfl⟩

/-! ## The codes -/

/-- A code that is left lies in a byte of the file (42_cmp_source.md R184). -/
theorem InStream.code_readable {s : State} (h : InStream s) (hmore : (s.cp : Int) < s.codeCount) :
    s.imemReadable s.codeByteIndex 1 = true := by
  obtain ⟨_, ⟨_, _, hcap⟩, _⟩ := h
  rw [State.codeCount] at hmore
  rw [imemReadable_iff, State.codeByteIndex]
  omega

/-- A code that is left has a step size, a range and a free element of WMEM (10_state.md R21, R24, R36): a byte holds two
codes and WMEM two samples for each byte of IMEM. -/
theorem InStream.codeDefined {s : State} (h : InStream s) (hmore : (s.cp : Int) < s.codeCount) : CodeDefined s := by
  have ⟨hlo, hhi⟩ := h.prec_bounds
  obtain ⟨_, ⟨_, _, hcap⟩, _, _, hidx⟩ := h
  refine ⟨hidx, hlo, hhi, ?_⟩
  rw [State.codeCount] at hmore
  rw [Params.wcap]
  omega

theorem execDecode_completes {s : State} (h : InStream s) (hcount : (s.cp : Int) ≤ s.codeCount) :
    ∃ t, execDecode s = .next t := by
  unfold execDecode
  split
  · exact ⟨_, rfl⟩
  · next hend =>
    have hmore : (s.cp : Int) < s.codeCount := by omega
    obtain ⟨d, a, hemit⟩ := exec_isCode _ (isCode_decodeCode s.currentCode) s
    rw [if_neg (not_not_intro (h.code_readable hmore)), execCode_eq_exec, hemit]
    exact ⟨_, (emitSample_next_iff d a s _).mpr ⟨h.codeDefined hmore, rfl⟩⟩

/-! ## The serializer -/

/-- Both kinds of stream have a rate whose WAV header fields fit (44_wav_sink.md R220). -/
theorem InStream.rate_fits {s : State} (h : InStream s) : s.rate < 2 ^ 32 ∧ s.rate * s.bps < 2 ^ 32 := by
  obtain ⟨_, ⟨_, hbps, _⟩, hmeta, _⟩ := h
  rcases hmeta with ⟨_, hrate, _⟩ | ⟨_, hrate, hbytes, _⟩
  · rw [hrate]
    rw [Config.bMax] at hbps
    rw [Config.defRate]
    omega
  · exact ⟨hrate, hbytes⟩

theorem execWavhdr_completes {s : State} (h : InStream s) : ∃ t, execWavhdr s = .next t := by
  unfold execWavhdr
  split
  · exact ⟨_, rfl⟩
  · rw [if_neg (not_not_intro h.rate_fits)]
    exact ⟨_, rfl⟩

/-- The room for all samples was checked by WAVHDR, so the next one has room (60_exceptions.md R277). -/
theorem execWavdata_completes {s : State} (h : InStream s) (hsp : s.sp ≤ s.nsamp) (holen : s.olen = 44 + s.sp * s.bps)
    (hroom : 44 + s.nsamp * s.bps ≤ s.par.ocap) : ∃ t, execWavdata s = .next t := by
  unfold execWavdata
  split
  · exact ⟨_, rfl⟩
  · next hlast =>
    have hmore : s.sp < s.nsamp := by omega
    have hprec := h.prec_bounds
    obtain ⟨_, ⟨hbps, _⟩, _⟩ := h
    have hnext : s.olen + s.bps ≤ s.par.ocap := by
      have : (s.sp + 1) * s.bps ≤ s.nsamp * s.bps := Nat.mul_le_mul_right _ hmore
      rw [Nat.succ_mul] at this
      omega
    rw [if_neg (not_not_intro hmore), if_neg (not_not_intro hprec), if_neg (Nat.ne_of_gt hbps),
      if_neg (Nat.not_lt.mpr hnext)]
    exact ⟨_, rfl⟩

theorem execBackfill_completes {s : State} (hheader : 44 ≤ s.olen) (hcap : s.olen ≤ s.par.ocap)
    (hocap : s.par.ocap < 2 ^ 32) : ∃ t, execBackfill s = .next t := by
  have hfield : 44 ≤ s.olen ∧ s.olen - 8 < 2 ^ 32 := by omega
  rw [execBackfill, if_neg (not_not_intro hfield), if_neg (by omega)]
  exact ⟨_, rfl⟩

/-! ## The block's turn -/

/-- The operation that PHASE selects answers a next state: what its phase means says that its operands are defined. -/
theorem operation_completes {s : State} {i : Instr} (h : BlockInv s) (hop : s.phase.operation = some i) :
    ∃ t, exec i s = .next t := by
  have hphase := h.phase
  cases hp : s.phase <;> rw [hp] at hop <;> cases hop <;> rw [PhaseInv, hp] at hphase
  case cfgchk => exact execCfgchk_completes s
  case sigchk =>
    obtain ⟨_, _, ⟨_, _, hcap⟩, _⟩ := hphase
    exact execSigchk_completes hcap
  case hdrparse =>
    obtain ⟨_, _, ⟨_, _, hcap⟩, _⟩ := hphase
    exact execHdrparse_completes hcap
  case decode =>
    obtain ⟨hstream, hcount, _⟩ := hphase
    exact execDecode_completes hstream hcount
  case wavhdr =>
    obtain ⟨hstream, _⟩ := hphase
    exact execWavhdr_completes hstream
  case wavdata =>
    obtain ⟨hstream, _, hsp, holen, hroom, _⟩ := hphase
    exact execWavdata_completes hstream hsp holen hroom
  case backfill =>
    obtain ⟨_, _, _, holen, hcap, _⟩ := hphase
    obtain ⟨_, _, hocap⟩ := (params_wf_iff s.par).mp h.params
    exact execBackfill_completes (by omega) hcap hocap

/-- Settles O55: a phase with an operation completes it, one without stays; either step keeps the invariant. -/
theorem blockNeverStops : Obligations.BlockNeverStops := by
  intro s h hblock
  have hnext : ∃ t, step s = .next t := by
    cases hop : s.phase.operation with
    | none => exact ⟨_, step_of_no_operation hblock hop⟩
    | some i =>
      rw [step_of_operation hblock hop]
      exact operation_completes h.popTurn hop
  obtain ⟨t, ht⟩ := hnext
  exact ⟨t, ht, stepKeepsInv s t h ht⟩

end Sys2Proof.Machine
end

section
/-! PROOF. A header written as the layout says passes SIGCHK and is latched by HDRPARSE. -/

namespace Sys2Proof.Machine

/-! ## The fields of a header in IMEM (20_memory.md R66) -/

theorem imemBytes_append (s : State) (a m n : Nat) :
    s.imemBytes a (m + n) = s.imemBytes a m ++ s.imemBytes (a + m) n := by
  induction m generalizing a with
  | zero => rw [Nat.zero_add]; rfl
  | succ m ih =>
    rw [Nat.succ_add, State.imemBytes, ih, State.imemBytes, List.cons_append, Nat.succ_add_eq_add_succ]

/-- The fields lie one after another, so each is read at its own offset. -/
theorem imemBytes_cmpHeader {s : State} {sig : Vector Byte 4} {size rate prec : Nat}
    (h : s.imemBytes 0 14 = cmpHeader sig size rate prec) :
    s.imemBytes 0 4 = sig.toList ∧ s.imemBytes 4 4 = le 4 size ∧ s.imemBytes 8 4 = le 4 rate
      ∧ s.imemBytes 12 2 = le 2 prec := by
  rw [cmpHeader, imemBytes_append s 0 12 2, imemBytes_append s 0 8 4, imemBytes_append s 0 4 4] at h
  obtain ⟨h, hprec⟩ := List.append_inj' h (by simp)
  obtain ⟨h, hrate⟩ := List.append_inj' h (by simp)
  obtain ⟨hsig, hsize⟩ := List.append_inj' h (by simp)
  exact ⟨hsig, hsize, hrate, hprec⟩

/-- A number that fits its little-endian field is what the field's bytes read as (00_scope.md R8). -/
theorem leVal_field {bs : List Byte} {n v : Nat} (h : bs = le n v) (hv : v < 256 ^ n) : leVal bs = v := by
  subst h
  exact (leVal_le n v).trans (Nat.mod_eq_of_lt hv)

/-! ## The checks passed -/

theorem execSigchk_pass {s : State} (hlen : 4 ≤ s.ilen) (hcap : 4 ≤ s.par.icap)
    (hsig : s.imemBytes 0 4 = s.par.sigExpected.toList) : execSigchk s = .next { s with phase := .hdrparse } := by
  have hread : s.imemReadable 0 4 = true := (imemReadable_iff s 0 4).mpr ⟨hlen, hcap⟩
  rw [execSigchk, if_neg (Nat.not_lt.mpr hlen), if_neg (not_not_intro hread)]
  exact if_neg (not_not_intro hsig)

theorem execHdrparse_pass {s : State} (hlen : 14 ≤ s.ilen) (hcap : 14 ≤ s.par.icap)
    (hprec : leVal (s.imemBytes 12 2) = 16)
    (hsize : ¬ (s.par.checkPaysize = true ∧ s.ilen - 14 < leVal (s.imemBytes 4 4)))
    (hrate : leVal (s.imemBytes 8 4) * s.bps < 2 ^ 32) :
    execHdrparse s = .next { s with
      paysize := leVal (s.imemBytes 4 4), rate := leVal (s.imemBytes 8 4), prec := 16, poff := 14, phase := .decode } := by
  have hread : s.imemReadable 4 10 = true := (imemReadable_iff s 4 10).mpr ⟨hlen, hcap⟩
  have hsupported : ¬ 16 ∉ Config.supportedPrec := by decide
  rw [execHdrparse, if_neg (Nat.not_lt.mpr hlen), if_neg (not_not_intro hread)]
  dsimp only
  rw [hprec, if_neg hsupported, if_neg hsize, if_neg (Nat.not_le.mpr hrate)]

/-- Settles O24: the four fields read back as they were written, and no check stops them. -/
theorem headerFieldsReadBack : Obligations.HeaderFieldsReadBack := by
  intro s size rate hsize hrate hlen hcap hheader hbytes hpay
  obtain ⟨hsig, hsizeField, hrateField, hprecField⟩ := imemBytes_cmpHeader hheader
  have hsize' : leVal (s.imemBytes 4 4) = size := leVal_field hsizeField hsize
  have hrate' : leVal (s.imemBytes 8 4) = rate := leVal_field hrateField hrate
  have hprec' : leVal (s.imemBytes 12 2) = 16 := leVal_field hprecField (by decide)
  refine ⟨execSigchk_pass (by omega) (by omega) hsig, ?_⟩
  have hpass := execHdrparse_pass hlen hcap hprec'
  rw [hsize', hrate'] at hpass
  exact hpass (fun hover => Nat.not_lt.mpr (hpay hover.1) hover.2) hbytes

end Sys2Proof.Machine
end

section
/-! PROOF. The three memories: which instructions write them, and the host's accesses to them. -/

namespace Sys2Proof.Machine

/-! ## The memories' owners -/

/-- An instruction leaves WMEM and OMEM as they are, or is a code and writes `WMEM[CP]`, or is an operation of the
serializer (20_memory.md R62, R63). -/
theorem exec_memories {i : Instr} {s t : State} (hexec : exec i s = .next t) :
    (t.wmem = s.wmem ∧ t.omem = s.omem)
    ∨ ((isCode i = true ∨ i = .decode) ∧ (∃ v, t.wmem = Memory.put s.wmem s.cp v) ∧ t.omem = s.omem)
    ∨ ((i = .wavhdr ∨ i = .wavdata ∨ i = .backfill) ∧ t.wmem = s.wmem) := by
  rcases exec_cases hexec with ⟨hcode, d, j, rfl⟩ | ⟨_, h⟩ | ⟨_, h⟩ | ⟨_, h⟩ | ⟨_, h⟩ | ⟨_, h⟩ | ⟨rfl, h⟩ | ⟨rfl, h⟩ |
    ⟨rfl, h⟩ | ⟨rfl, h⟩
  · exact .inr (.inl ⟨.inl hcode, ⟨_, rfl⟩, rfl⟩)
  · rcases execStart_cases h with ⟨_, rfl⟩ | ⟨_, rfl⟩ <;> exact .inl ⟨rfl, rfl⟩
  · rcases execClear_cases h with ⟨_, rfl⟩ | ⟨_, rfl⟩ <;> exact .inl ⟨rfl, rfl⟩
  · rcases execCfgchk_cases h with ⟨_, rfl⟩ | ⟨_, _, _, rfl⟩ | ⟨_, _, rfl⟩ | ⟨_, _, rfl⟩ <;> exact .inl ⟨rfl, rfl⟩
  · rcases execSigchk_cases h with ⟨_, rfl⟩ | ⟨_, _, rfl⟩ | ⟨_, _, rfl⟩ <;> exact .inl ⟨rfl, rfl⟩
  · rcases execHdrparse_cases h with ⟨_, rfl⟩ | ⟨_, _, rfl⟩ | ⟨_, _, _, _, rfl⟩ | ⟨_, _, _, _, rfl⟩ | ⟨_, _, _, _, rfl⟩ <;>
      exact .inl ⟨rfl, rfl⟩
  · rcases execDecode_cases h with ⟨_, rfl⟩ | ⟨_, _, _, d, a, rfl⟩
    · exact .inl ⟨rfl, rfl⟩
    · exact .inr (.inl ⟨.inr rfl, ⟨_, rfl⟩, rfl⟩)
  · rcases execWavhdr_cases h with ⟨_, rfl⟩ | ⟨_, _, _, rfl⟩ <;> exact .inr (.inr ⟨.inl rfl, rfl⟩)
  · rcases execWavdata_cases h with ⟨_, rfl⟩ | ⟨_, _, _, _, _, rfl⟩ <;> exact .inr (.inr ⟨.inr (.inl rfl), rfl⟩)
  · obtain ⟨_, _, _, rfl⟩ := execBackfill_cases h
    exact .inr (.inr ⟨.inr (.inr rfl), rfl⟩)

/-- Settles O57: IMEM is the host's, and the other two memories are written by their owners only. -/
theorem memoryOwners : Obligations.MemoryOwners := by
  intro i s t hexec
  obtain ⟨_, himem⟩ := runConfigurationConstant i s t hexec
  refine ⟨himem, ?_⟩
  rcases exec_memories hexec with ⟨hwmem, homem⟩ | ⟨hcode, hput, homem⟩ | ⟨hsink, hwmem⟩
  · exact ⟨fun h => absurd hwmem h, fun h => absurd homem h⟩
  · exact ⟨fun _ => ⟨hcode, hput⟩, fun h => absurd homem h⟩
  · exact ⟨fun h => absurd hwmem h, fun _ => hsink⟩

/-! ## The host's turns -/

section HostTurns

variable {s : State} {i : Nat} {rest : List Turn}

theorem step_writeImem {b : Byte} (h : s.agenda = .outside (.writeImem i b) :: rest) :
    step s = writeImem i b s.popTurn := by
  rw [step_outside s _ rest h]
  rfl

theorem step_readWmem (h : s.agenda = .outside (.readWmem i) :: rest) : step s = readWmem i s.popTurn := by
  rw [step_outside s _ rest h]
  rfl

theorem step_readOmem (h : s.agenda = .outside (.readOmem i) :: rest) : step s = readOmem i s.popTurn := by
  rw [step_outside s _ rest h]
  rfl

/-! ## IMEM -/

theorem writeImem_inside (b : Byte) (hbusy : s.busy = false) (hi : i < s.par.icap) :
    writeImem i b s = .next { s with imem := Memory.put s.imem i b } := by
  rw [writeImem, hbusy, if_neg Bool.false_ne_true, if_neg (not_not_intro hi)]

theorem writeImem_beyond (b : Byte) (hbusy : s.busy = false) (hi : s.par.icap ≤ i) :
    writeImem i b s = .fault .noSuchElement := by
  rw [writeImem, hbusy, if_neg Bool.false_ne_true, if_pos (Nat.not_lt.mpr hi)]

theorem imemAt_put (s : State) (i a : Nat) (b : Byte) :
    { s with imem := Memory.put s.imem i b }.imemAt a = if a = i then b else s.imemAt a := by
  rw [State.imemAt, Memory.look_put]
  split <;> rfl

/-! ## WMEM and OMEM -/

theorem readWmem_sample (hi : i < s.par.wcap) (hbusy : s.busy = false) (hn : i < s.nsamp) :
    readWmem i s = .next { s with readback := .sample (s.wmemAt i) } := by
  simp [readWmem, hi, hbusy, hn]

theorem readWmem_free (hi : i < s.par.wcap) (hfree : s.busy = true ∨ s.nsamp ≤ i) :
    readWmem i s
      = .next { s with readback := .sample (Config.anySample s.draws).toInt, draws := s.draws + 1 } := by
  have hguard : (!s.busy && decide (i < s.nsamp)) = false := by
    rcases hfree with hbusy | hn
    · simp [hbusy]
    · simp [hn]
  rw [readWmem, if_neg (not_not_intro hi), hguard, if_neg Bool.false_ne_true]

theorem readOmem_byte (hi : i < s.par.ocap) (hdone : s.phase = .done) (hn : i < s.olen) :
    readOmem i s = .next { s with readback := .byte (s.omemAt i) } := by
  simp [readOmem, hi, hdone, hn]

theorem readOmem_free (hi : i < s.par.ocap) (hfree : s.phase ≠ .done ∨ s.olen ≤ i) :
    readOmem i s = .next { s with readback := .byte (Config.anyByte s.draws), draws := s.draws + 1 } := by
  have hguard : (decide (s.phase = .done) && decide (i < s.olen)) = false := by
    rcases hfree with hdone | hn
    · simp [hdone]
    · simp [hn]
  rw [readOmem, if_neg (not_not_intro hi), hguard, if_neg Bool.false_ne_true]

end HostTurns

/-! ## The statements -/

/-- Settles O50: a write inside the memory is a `Memory.put`, one beyond it faults. -/
theorem imemWrite : Obligations.ImemWrite := by
  intro s i b rest h hbusy
  rw [step_writeImem h, popTurn_eq h]
  refine ⟨fun hi => ⟨_, writeImem_inside b hbusy hi, rfl, ?same, fun a ha => ?other⟩,
    fun hi => writeImem_beyond b hbusy hi⟩
  case same => exact (imemAt_put { s with agenda := rest } i i b).trans (if_pos rfl)
  case other => exact (imemAt_put { s with agenda := rest } i a b).trans (if_neg ha)

/-- Settles O51: each read by its two cases, a defined element or a free value. -/
theorem hostMemoryReads : Obligations.HostMemoryReads := by
  refine fun s i rest => ⟨fun h hi => ?wmem, fun h hi => ?omem⟩
  case wmem =>
    rw [step_readWmem h, popTurn_eq h]
    exact ⟨readWmem_sample (s := { s with agenda := rest }) hi, readWmem_free (s := { s with agenda := rest }) hi⟩
  case omem =>
    rw [step_readOmem h, popTurn_eq h]
    exact ⟨readOmem_byte (s := { s with agenda := rest }) hi, readOmem_free (s := { s with agenda := rest }) hi⟩

/-- Settles O49: each read answers the state it found but for what was read and the count of free values. -/
theorem hostReadsChangeNothing : Obligations.HostReadsChangeNothing := by
  rintro s t a rest h (⟨n, rfl⟩ | ⟨i, rfl⟩ | ⟨i, rfl⟩) hstep
  · rw [step_readReg h, popTurn_eq h] at hstep
    obtain ⟨r, d, hread⟩ := readReg_cases n { s with agenda := rest }
    cases hstep
    rw [hread]
  · rw [step_readWmem h, popTurn_eq h] at hstep
    obtain ⟨_, r, d, rfl⟩ := readWmem_cases hstep
    rfl
  · rw [step_readOmem h, popTurn_eq h] at hstep
    obtain ⟨_, r, d, rfl⟩ := readOmem_cases hstep
    rfl

end Sys2Proof.Machine
end


section
/-! PROOF. Two codes in a payload byte, and the codes of a whole payload. -/

namespace Sys2Proof.Machine

/-! ## Two codes in a byte (30_encoding.md R93, R104; 42_cmp_source.md R185) -/

@[simp] theorem lowNibble_append (a b : Code) : lowNibble (a ++ b) = b := BitVec.extractLsb'_append_eq_right

@[simp] theorem highNibble_append (a b : Code) : highNibble (a ++ b) = a := BitVec.extractLsb'_append_eq_left

@[simp] theorem highNibble_append_lowNibble (b : Byte) : highNibble b ++ lowNibble b = b :=
  (BitVec.extractLsb'_append_extractLsb'_eq_extractLsb' rfl).trans BitVec.extractLsb'_eq_self

theorem lowNibble_ofNat (w : Nat) : lowNibble (BitVec.ofNat 8 w) = BitVec.ofNat 4 w := by
  apply BitVec.eq_of_toNat_eq
  simp [lowNibble]

/-- Of the byte `PAIR a, b`, code `a` plays first. -/
theorem nib_pairByte (ord : NibOrder) (a b : Code) (j : Nat) :
    nib ord (pairByte ord a b) j = if j % 2 = 0 then a else b := by
  cases ord <;> simp [nib, pairByte]

/-- A byte is the pair of the codes it plays. -/
theorem pairByte_nib (ord : NibOrder) (b : Byte) : pairByte ord (nib ord b 0) (nib ord b 1) = b := by
  cases ord <;> simp [nib, pairByte]

/-! ## The codes of a payload -/

theorem unpackCodes_packCodes (ord : NibOrder) (cs : List Code) (heven : cs.length % 2 = 0) :
    unpackCodes ord (packCodes ord cs) = cs := by
  induction cs using packCodes.induct with
  | case1 => rfl
  | case2 a => exact absurd heven Nat.one_ne_zero
  | case3 a b cs ih =>
    have hrest : cs.length % 2 = 0 := (Nat.add_mod_right cs.length 2).symm.trans heven
    rw [packCodes, unpackCodes, nib_pairByte, nib_pairByte, ih hrest]
    rfl

theorem packCodes_unpackCodes (ord : NibOrder) (bs : List Byte) : packCodes ord (unpackCodes ord bs) = bs := by
  induction bs with
  | nil => rfl
  | cons b bs ih => rw [unpackCodes, packCodes, pairByte_nib, ih]

theorem unpackCodes_length (ord : NibOrder) (bs : List Byte) : (unpackCodes ord bs).length = 2 * bs.length := by
  induction bs with
  | nil => rfl
  | cons b bs ih => rw [unpackCodes, List.length_cons, List.length_cons, ih, List.length_cons, Nat.mul_succ]

/-- Settles O2: a byte and its two codes determine each other, and both directions go by induction over the pairs. -/
theorem streamPackUnpack : Obligations.StreamPackUnpack :=
  ⟨unpackCodes_packCodes, packCodes_unpackCodes, unpackCodes_length⟩

end Sys2Proof.Machine
end

section
/-! PROOF. The bytes of a sample read back to the normalized sample (30_encoding.md R96). -/

namespace Sys2Proof.Machine

/-- A quotient truncated toward zero is as near to zero as its dividend allows. -/
theorem tdiv_bounds {n k : Int} {d : Nat} (hlo : -(k * d) < n) (hhi : n < k * d) : -k < tdiv n d ∧ tdiv n d < k := by
  have hd : (0 : Int) < d := by
    rcases Nat.eq_zero_or_pos d with rfl | hpos
    · rw [Int.natCast_zero, Int.mul_zero] at hlo hhi
      omega
    · exact Int.natCast_pos.mpr hpos
  rw [tdiv]
  split
  · next hn =>
    have hq : 0 ≤ n / d := Int.ediv_nonneg hn (Int.le_of_lt hd)
    have hk : n / d < k := Int.ediv_lt_of_lt_mul hd hhi
    omega
  · next hn =>
    have hq : 0 ≤ -n / d := Int.ediv_nonneg (by omega) (Int.le_of_lt hd)
    have hk : -n / d < k := Int.ediv_lt_of_lt_mul hd (by omega)
    omega

theorem natCast_two_pow (n : Nat) : ((2 ^ n : Nat) : Int) = 2 ^ n := Int.natCast_pow 2 n

theorem two_mul_two_pow_pred {n : Nat} (hn : 1 ≤ n) : 2 * 2 ^ (n - 1) = 2 ^ n :=
  (Nat.mul_comm _ _).trans (Nat.two_pow_pred_mul_two hn)

/-- The dividend of `NORM` stays within half of `W + 1 = 2 * k` times the divisor `2 * U`, since the clamped sample `u` is in
`0 .. U` (43_pcm_normalizer.md R200). -/
theorem norm_dividend_bounds {u U k : Int} (hlo : 0 ≤ u) (hhi : u ≤ U) (hU : 0 < U) (hk : 0 < k) :
    -(k * (2 * U)) < (2 * k - 1) * (2 * u - U) ∧ (2 * k - 1) * (2 * u - U) < k * (2 * U) := by
  have hfromLow : 0 ≤ (2 * k - 1) * u := Int.mul_nonneg (by omega) hlo
  have htoHigh : 0 ≤ (2 * k - 1) * (U - u) := Int.mul_nonneg (by omega) (by omega)
  have hdifference : (2 * k - 1) * (2 * u - U) = (2 * k - 1) * u - (2 * k - 1) * (U - u) := by
    rw [← Int.mul_sub, (by omega : 2 * u - U = u - (U - u))]
  have hsum : (2 * k - 1) * u + (2 * k - 1) * (U - u) = k * (2 * U) - U := by
    rw [← Int.mul_add, (by omega : u + (U - u) = U), Int.sub_mul, Int.one_mul, Int.mul_comm 2 k, Int.mul_assoc]
  omega

/-- `NORM` lands in the signed numbers of `b` bytes, their least one left out (43_pcm_normalizer.md R203). -/
theorem pcmNorm_bounds (x : Int) {i b : Nat} (hi : 1 ≤ i) (hb : 1 ≤ b) :
    -(2 ^ (8 * b - 1)) < pcmNorm x i b ∧ pcmNorm x i b < 2 ^ (8 * b - 1) := by
  have hhalf : (2 : Int) ^ (8 * b) = 2 * 2 ^ (8 * b - 1) := by
    rw [← natCast_two_pow, ← natCast_two_pow, ← two_mul_two_pow_pred (by omega : 1 ≤ 8 * b)]
    exact Int.natCast_mul 2 _
  have hone : 1 < 2 ^ i := Nat.one_lt_two_pow (Nat.ne_of_gt hi)
  have hcast : ((2 ^ i : Nat) : Int) = 2 ^ i := natCast_two_pow i
  have hU : (0 : Int) < 2 ^ i - 1 := by omega
  have hdivisor : ((2 * (2 ^ i - 1) : Nat) : Int) = 2 * (2 ^ i - 1) := by omega
  have hk : (0 : Int) < 2 ^ (8 * b - 1) := Int.pow_pos (by decide)
  obtain ⟨hlo, hhi⟩ := norm_dividend_bounds (le_clampInt (x := x + 2 ^ (i - 1)) (Int.le_of_lt hU))
    (clampInt_le (Int.le_of_lt hU)) hU hk
  rw [pcmNorm, hhalf]
  exact tdiv_bounds (by rw [hdivisor]; exact hlo) (by rw [hdivisor]; exact hhi)

theorem leVal_sampleBytes (x : Int) (i b : Nat) : (leVal (sampleBytes x i b) : Int) = pcmNorm x i b % 2 ^ (8 * b) := by
  have hpos : (0 : Int) < 2 ^ (8 * b) := Int.pow_pos (by decide)
  have hmod : 0 ≤ pcmNorm x i b % 2 ^ (8 * b) := Int.emod_nonneg _ (Int.ne_of_gt hpos)
  have hbase : 256 ^ b = 2 ^ (8 * b) := (Nat.pow_mul 2 8 b).symm
  rw [sampleBytes, leVal_le, tc, Int.natCast_emod, Int.toNat_of_nonneg hmod, hbase, natCast_two_pow, Int.emod_emod]

/-- A number in the signed range of `2 * k` values, from its residue read as two's complement (93_implementation_defined.md
G3). -/
theorem eq_signed_of_emod {v : Int} {k r : Nat} (hlo : -k ≤ v) (hhi : v < k) (hr : (r : Int) = v % (2 * k : Nat)) :
    v = if r < k then (r : Int) else r - (2 * k : Nat) := by
  have hbmod : v.bmod (2 * k) = v := Int.bmod_eq_of_le_mul_two (by omega) (by omega)
  rw [Int.bmod_def, ← hr] at hbmod
  split <;> split at hbmod <;> omega

/-- Settles O34: the bytes hold `NORM` modulo `2^(8b)`, and `NORM` is in the signed range. -/
theorem sampleBytesReadBack : Obligations.SampleBytesReadBack := by
  intro x i b hi hb
  obtain ⟨hlo, hhi⟩ := pcmNorm_bounds x hi hb
  have hhalf : 2 * 2 ^ (8 * b - 1) = 2 ^ (8 * b) := two_mul_two_pow_pred (by omega)
  have hresidue : (leVal (sampleBytes x i b) : Int) = pcmNorm x i b % (2 * 2 ^ (8 * b - 1) : Nat) := by
    rw [hhalf, natCast_two_pow, leVal_sampleBytes]
  rw [← natCast_two_pow] at hlo hhi
  have hsigned := eq_signed_of_emod (Int.le_of_lt hlo) hhi hresidue
  rw [hhalf, natCast_two_pow] at hsigned
  exact ⟨sampleBytes_length x i b, hsigned⟩

end Sys2Proof.Machine
end

section
/-! PROOF. The three formats that are decoded, and the placing of an instruction where the next step finds it. -/

namespace Sys2Proof.Machine

/-! ## The three formats (30_encoding.md R92, R97, R98) -/

/-- The sixteen codes in the order of the table. -/
theorem encode_decodeCode : ∀ c : Code, encode (decodeCode c) = .code c := by decide

theorem encode_of_decodePhase {p : BitVec 4} {i : Instr} (h : decodePhase p = .ok i) : encode i = .phase p := by
  rw [decodePhase] at h
  split at h <;> cases h <;> exact congrArg Encoded.phase (BitVec.eq_of_toNat_eq (Eq.symm ‹_›))

/-- An instruction has one encoding. -/
theorem encode_of_decode {e : Encoded} {i : Instr} (h : decode e = .ok i) : encode i = e := by
  cases e with
  | code c => cases h; exact encode_decodeCode c
  | command w =>
    rcases decodeCommand_cases w with ⟨rfl, hw⟩ | ⟨rfl, hw⟩ | ⟨_, _, hw⟩
    · cases hw.symm.trans h; rfl
    · cases hw.symm.trans h; rfl
    · cases hw.symm.trans h
  | phase p => exact encode_of_decodePhase h

/-- Nine PHASE values have no operation (10_state.md R33). -/
theorem decodePhase_of_not_wf :
    ∀ p : BitVec 4, (Encoded.phase p).wf = false → (decodePhase p).toOption = none := by decide

theorem decode_of_not_wf {e : Encoded} (h : e.wf = false) : ∃ r, decode e = .error r := by
  cases e with
  | code c => cases h
  | command w =>
    rcases decodeCommand_cases w with ⟨rfl, _⟩ | ⟨rfl, _⟩ | ⟨_, _, hw⟩
    · cases h
    · cases h
    · exact ⟨_, hw⟩
  | phase p =>
    have hnone : (decodePhase p).toOption = none := decodePhase_of_not_wf p h
    rw [decode]
    cases hp : decodePhase p with
    | error r => exact ⟨r, rfl⟩
    | ok i => rw [hp] at hnone; cases hnone

/-- The family of Laws/PerInstr.lean as one statement. -/
theorem encoding_statement : ∀ i : Instr, Laws.Encoding.Statement i
  | .p0 => Laws.Encoding.p0 | .p1 => Laws.Encoding.p1 | .p2 => Laws.Encoding.p2 | .p3 => Laws.Encoding.p3
  | .p4 => Laws.Encoding.p4 | .p5 => Laws.Encoding.p5 | .p6 => Laws.Encoding.p6 | .p7 => Laws.Encoding.p7
  | .n0 => Laws.Encoding.n0 | .n1 => Laws.Encoding.n1 | .n2 => Laws.Encoding.n2 | .n3 => Laws.Encoding.n3
  | .n4 => Laws.Encoding.n4 | .n5 => Laws.Encoding.n5 | .n6 => Laws.Encoding.n6 | .n7 => Laws.Encoding.n7
  | .start => Laws.Encoding.start | .clear => Laws.Encoding.clear
  | .cfgchk => Laws.Encoding.cfgchk | .sigchk => Laws.Encoding.sigchk | .hdrparse => Laws.Encoding.hdrparse
  | .decode => Laws.Encoding.decode | .wavhdr => Laws.Encoding.wavhdr | .wavdata => Laws.Encoding.wavdata
  | .backfill => Laws.Encoding.backfill

/-- Settles O1: what decodes is an encoding, so it is as well formed as every encoding is. -/
theorem decodeEncodeAgree : Obligations.DecodeEncodeAgree := by
  refine ⟨fun i => ?encoded, fun e i h => ?decoded, fun e h => decode_of_not_wf h⟩
  case encoded =>
    obtain ⟨_, hwf, hdecode⟩ := encoding_statement i
    exact ⟨hwf, hdecode⟩
  case decoded =>
    obtain ⟨_, hwf, _⟩ := encoding_statement i
    have he : encode i = e := encode_of_decode h
    exact ⟨he, he ▸ hwf⟩

/-- Settles O4: each word by running the decoder on it. -/
theorem opcodeWordsDecode : Obligations.OpcodeWordsDecode :=
  ⟨rfl, rfl, rfl, rfl, rfl, rfl, rfl, rfl, rfl, rfl, rfl, rfl, rfl, rfl, rfl⟩

/-! ## A placed instruction (log 5) -/

/-- With a readable code left, DECODE runs the code that is fetched (42_cmp_source.md R184). -/
theorem exec_decode_fetched {s : State} (hmore : (s.cp : Int) ≠ s.codeCount)
    (hread : s.imemReadable s.codeByteIndex 1 = true) : exec .decode s = exec (decodeCode s.currentCode) s := by
  rw [← execCode_eq_exec, exec, execDecode, if_neg hmore, if_neg (not_not_intro hread)]

/-- The byte stored plays the placed code at `CP`, whatever the nibble order and the parity. -/
theorem currentCode_placeCode (b : Byte) (s : State) : (placeCode b s).currentCode = lowNibble b := by
  have hbyte : (placeCode b s).imemAt s.codeByteIndex
      = if s.cp % 2 = 0 then pairByte s.cfg.nibord (lowNibble b) (highNibble b)
        else pairByte s.cfg.nibord (highNibble b) (lowNibble b) :=
    congrArg (Option.getD · _) (Memory.look_put_same _ _ _)
  show nib s.cfg.nibord ((placeCode b s).imemAt s.codeByteIndex) (s.cp % 2) = lowNibble b
  rw [hbyte]
  by_cases heven : s.cp % 2 = 0
  · rw [if_pos heven, nib_pairByte, Nat.mod_mod, if_pos heven]
  · rw [if_neg heven, nib_pairByte, Nat.mod_mod, if_neg heven]

/-- The file placed is long enough for the code's byte. -/
theorem codeByteIndex_lt_placeCode_ilen (b : Byte) (s : State) : s.codeByteIndex < (placeCode b s).ilen := by
  show s.codeByteIndex < if s.codeByteIndex < s.ilen then s.ilen else s.codeByteIndex + 1
  split <;> omega

/-- The step after a placed code runs it: the turn is the block's, PHASE is DECODE, and the code's byte is inside the file and
inside IMEM. -/
theorem step_placeCode {b : Byte} {s : State} (hroom : s.codeByteIndex < s.par.icap) :
    step (placeCode b s) = exec (decodeCode (lowNibble b)) (placeCode b s).popTurn := by
  have hlen : s.poff + s.cp / 2 < (placeCode b s).ilen := codeByteIndex_lt_placeCode_ilen b s
  have hmore : (s.cp : Int) ≠ 2 * ((placeCode b s).ilen - s.poff) := by omega
  have hread : (placeCode b s).imemReadable s.codeByteIndex 1 = true := (imemReadable_iff _ _ _).mpr ⟨hlen, hroom⟩
  have hcode : (placeCode b s).popTurn.currentCode = lowNibble b := currentCode_placeCode b s
  rw [step_of_operation (i := .decode) rfl rfl, exec_decode_fetched (s := (placeCode b s).popTurn) hmore hread, hcode]

theorem step_placeCommand {w : Word} {s : State} {i : Instr} (h : decodeCommand w = .ok i) :
    step (placeCommand w s) = exec i s := by
  rw [step_command _ w s.agenda rfl, h]
  rfl

/-- A row of 32 bits is read as a CMD value. -/
theorem decodeCommand_of_decodeTableWord {w : Nat} {i : Instr} (h : decodeTableWord 32 w = some i) :
    decodeCommand (BitVec.ofNat 32 w) = .ok i := by
  change (decodeCommand (BitVec.ofNat 32 w)).toOption = some i at h
  cases hw : decodeCommand (BitVec.ofNat 32 w) with
  | error r => rw [hw] at h; cases h
  | ok j => rw [hw] at h; cases h; rfl

/-- Settles O8: a code by `step_placeCode`, a command by `step_placeCommand`. -/
theorem placedInstructionRuns : Obligations.PlacedInstructionRuns := by
  refine ⟨fun s w _ hroom => ?code, fun s w i h => ?command⟩
  case code =>
    exact ⟨decodeCode (lowNibble (BitVec.ofNat 8 w)), rfl, congrArg decodeCode (lowNibble_ofNat w), step_placeCode hroom⟩
  case command =>
    exact step_placeCommand (decodeCommand_of_decodeTableWord h)

end Sys2Proof.Machine
end

section
/-! PROOF. The step table: every code moves the cursor by the adjustment of its low three bits, and the cursor saturates
(40_step_table.md R121, R123, R125). -/

namespace Sys2Proof.Machine

/-! ## A code is the shared operation with its own difference and adjustment -/

/-- The general rule R141: each of the sixteen meanings is `emitSample` with the code's difference and adjustment. -/
theorem exec_decodeCode (c : Code) (s : State) :
    exec (decodeCode c) s = emitSample (difference s.currentStep c) (adjust (Code.selector c)) s := by
  have hcode := encode_decodeCode c
  cases hi : decodeCode c <;> rw [hi] at hcode <;> cases hcode <;>
    simp [exec, difference, magnitude, Code.sign, Code.bit, Code.selector, adjust, execP0, execP1, execP2, execP3,
      execP4, execP5, execP6, execP7, execN0, execN1, execN2, execN3, execN4, execN5, execN6, execN7]

/-- A code that answers a next state had a result, and that state is the general rule's. -/
theorem exec_decodeCode_next {c : Code} {s t : State} (h : exec (decodeCode c) s = .next t) :
    CodeDefined s ∧ t = afterCode (difference s.currentStep c) (advance s.cfg.profile.length s.idx c) s := by
  rw [exec_decodeCode] at h
  exact (emitSample_next_iff _ _ s t).mp h

/-- The cursor of a code that answers a next state was inside the table and is advanced (40_step_table.md R123, R125). -/
theorem exec_decodeCode_idx {c : Code} {s t : State} (h : exec (decodeCode c) s = .next t) :
    s.idx < s.cfg.profile.length ∧ t.idx = advance s.cfg.profile.length s.idx c := by
  obtain ⟨⟨hidx, _⟩, rfl⟩ := exec_decodeCode_next h
  exact ⟨hidx, rfl⟩

/-! ## The cursor's arithmetic -/

theorem moveCursor_eq_max_min {len : Nat} (hlen : 1 ≤ len) (idx : Nat) (a : Int) :
    moveCursor len idx a = (max 0 (min ((idx : Int) + a) (len - 1))).toNat := by
  rw [moveCursor, clampInt_eq_max_min (by omega)]

/-- One entry down, from 0 to 0. -/
theorem moveCursor_down {len idx : Nat} (hidx : idx < len) : moveCursor len idx (-1) = idx - 1 := by
  rw [moveCursor_eq_max_min (by omega)]
  omega

/-- `k` entries up where the table has them, else to its last entry. -/
theorem moveCursor_up {len idx : Nat} (hidx : idx < len) (k : Nat) :
    moveCursor len idx k = if idx + (k + 1) ≤ len then idx + k else len - 1 := by
  rw [moveCursor_eq_max_min (by omega)]
  split <;> omega

/-- The sign bit is none of the three bits that select the adjustment. -/
theorem selector_flipSign : ∀ c : Code, Code.selector (c ^^^ 0x8#4) = Code.selector c := by decide

theorem adjust_of_le_three {m : Nat} (hm : m ≤ 3) : adjust m = -1 := by
  obtain rfl | rfl | rfl | rfl : m = 0 ∨ m = 1 ∨ m = 2 ∨ m = 3 := by omega
  all_goals rfl

theorem adjust_selector_eq_getD (c : Code) :
    adjust (Code.selector c) = ([-1, -1, -1, -1, 2, 4, 6, 8] : List Int).getD (c.toNat % 8) 0 := by
  revert c
  decide

/-- Settles O14: the cursor is `advance`d, whose sum is below the table, inside it or above it. -/
theorem cursorSaturates : Obligations.CursorSaturates := by
  intro s t c hexec
  obtain ⟨hidx, hcursor⟩ := exec_decodeCode_idx hexec
  have hmove {m : Nat} (hm : c.toNat % 8 = m) : t.idx = moveCursor s.cfg.profile.length s.idx (adjust m) := hm ▸ hcursor
  refine ⟨?inside, fun hm => ?down, fun hm => ?up4, fun hm => ?up5, fun hm => ?up6, fun hm => ?up7, fun u hu => ?sign⟩
  case inside => exact hcursor ▸ moveCursor_lt _ _ _ (length_pos _)
  case down => rw [hmove rfl, adjust_of_le_three hm, moveCursor_down hidx]
  case up4 => exact (hmove hm).trans (moveCursor_up hidx 2)
  case up5 => exact (hmove hm).trans (moveCursor_up hidx 4)
  case up6 => exact (hmove hm).trans (moveCursor_up hidx 6)
  case up7 => exact (hmove hm).trans (moveCursor_up hidx 8)
  case sign =>
    obtain ⟨_, hflipped⟩ := exec_decodeCode_idx hu
    rw [hflipped, hcursor, advance, advance, selector_flipSign]

/-- Settles O15: `advance` is the clamped sum, with the table's entry for the code's selector. -/
theorem adjustmentTable : Obligations.AdjustmentTable := by
  refine ⟨by decide, fun c s t hexec => ?_⟩
  obtain ⟨_, hcursor⟩ := exec_decodeCode_idx hexec
  refine ⟨?_, hcursor⟩
  rw [hcursor, advance, moveCursor_eq_max_min (length_pos _), adjust_selector_eq_getD]
  cases s.cfg.profile <;> rfl

end Sys2Proof.Machine
end

section
/-! PROOF. Two runs of the same file agree (70_reset_and_hazards.md R320). Two blocks that agree differ only in what their
pasts left in the elements of memory that are not valid, and in the model's own book-keeping. `withPastOf` exchanges just
these, so both blocks take the same branch of every operation; what an operation then writes is the same in both. -/

namespace Sys2Proof.Machine

/-! ## Agreement -/

/-- The registers, parameters and turns of `s` over the memories and the book-keeping of `p`. -/
def State.withPastOf (s p : State) : State :=
  { s with imem := p.imem, wmem := p.wmem, omem := p.omem, readback := p.readback, epoch := p.epoch, draws := p.draws }

/-- The elements of memory that the registers of `s` count as valid read alike in both states. -/
structure SameValidParts (s t : State) : Prop where
  imem : ∀ i, i < s.ilen → s.imemAt i = t.imemAt i
  wmem : ∀ i, i < s.nsamp → s.wmemAt i = t.wmemAt i
  omem : ∀ i, i < s.olen → s.omemAt i = t.omemAt i

theorem sameRun_iff (s t : State) : SameRun s t ↔ t = s.withPastOf t ∧ SameValidParts s t := by
  constructor
  · rintro ⟨⟨hpar, hcfg, hilen, himem⟩, hphase, herr, herrinfo, hnsamp, holen, hrate, hprec, hpaysize, hpoff, hidx,
      hacc, hcp, hsp, hagenda, hwmem, homem⟩
    refine ⟨?_, himem, hwmem, homem⟩
    rw [State.withPastOf, hpar, hcfg, hilen, hphase, herr, herrinfo, hnsamp, holen, hrate, hprec, hpaysize, hpoff, hidx,
      hacc, hcp, hsp, hagenda]
  · rintro ⟨ht, himem, hwmem, homem⟩
    rw [ht] at himem hwmem homem ⊢
    exact ⟨⟨rfl, rfl, rfl, himem⟩, rfl, rfl, rfl, rfl, rfl, rfl, rfl, rfl, rfl, rfl, rfl, rfl, rfl, rfl, hwmem, homem⟩

theorem SameRun.popTurn {s t : State} (h : SameRun s t) : SameRun s.popTurn t.popTurn := by
  obtain ⟨ht, himem, hwmem, homem⟩ := (sameRun_iff s t).mp h
  exact (sameRun_iff _ _).mpr ⟨congrArg State.popTurn ht, himem, hwmem, homem⟩

/-- Both outcomes are states that agree, or both are the same fault. -/
inductive Lockstep : Out → Out → Prop where
  | next {s t : State} (h : SameRun s t) : Lockstep (.next s) (.next t)
  | fault (f : Fault) : Lockstep (.fault f) (.fault f)

theorem Lockstep.of_parts {s t : State} (ht : t = s.withPastOf t) (h : SameValidParts s t) :
    Lockstep (.next s) (.next t) :=
  .next ((sameRun_iff s t).mpr ⟨ht, h⟩)

theorem Lockstep.ite {c : Prop} [Decidable c] {a b a' b' : Out} (hpos : c → Lockstep a a')
    (hneg : ¬ c → Lockstep b b') :
    Lockstep (if c then a else b) (if c then a' else b') := by
  split
  · next h => exact hpos h
  · next h => exact hneg h

/-! ## What an operation reads and writes -/

section Operations

variable {s p : State} (h : SameValidParts s p)
include h

theorem SameValidParts.imemBytes {a n : Nat} (hlen : a + n ≤ s.ilen) :
    (s.withPastOf p).imemBytes a n = s.imemBytes a n :=
  imemBytes_congr _ _ a n fun i _ hi => (h.imem i (by omega)).symm

theorem SameValidParts.currentCode (hread : s.codeByteIndex < s.ilen) :
    (s.withPastOf p).currentCode = s.currentCode :=
  congrArg (nib s.cfg.nibord · (s.cp % 2)) (h.imem _ hread).symm

/-- The error entry makes no byte of OMEM valid (60_exceptions.md R273). -/
theorem raiseError_lockstep (e : Err) (info : Nat) :
    Lockstep (.next (raiseError e info s)) (.next (raiseError e info (s.withPastOf p))) :=
  .of_parts rfl ⟨h.imem, h.wmem, fun _ hi => absurd hi (Nat.not_lt_zero _)⟩

/-- A code makes one more sample valid, the one it writes to both memories (10_state.md R23). -/
theorem afterCode_lockstep (hnsamp : s.nsamp = s.cp) (d : Int) (j : Nat) :
    Lockstep (.next (afterCode d j s)) (.next (afterCode d j (s.withPastOf p))) := by
  refine .of_parts rfl ⟨h.imem, fun i hi => ?wmem, h.omem⟩
  have hold : i ≠ s.cp → s.wmemAt i = p.wmemAt i := fun hother => h.wmem i (by rw [afterCode_nsamp] at hi; omega)
  simp only [State.wmemAt, afterCode_wmem, afterCode_epoch, Memory.look_put]
  by_cases hlast : i = s.cp
  · rw [if_pos hlast, if_pos (show i = (s.withPastOf p).cp from hlast), Option.getD_some, Option.getD_some]
    rfl
  · rw [if_neg hlast, if_neg (show i ≠ (s.withPastOf p).cp from hlast)]
    exact hold hlast

/-- Bytes written to both memories read alike, so OLEN may be raised over them (20_memory.md R63). -/
theorem SameValidParts.writeOmem (a : Nat) (vs : List Byte) (olen : Nat)
    (hcover : ∀ i, i < olen → i < s.olen ∨ (a ≤ i ∧ i < a + vs.length)) :
    SameValidParts { s with omem := Memory.putAll s.omem a vs, olen := olen }
      { p with omem := Memory.putAll p.omem a vs } := by
  refine ⟨h.imem, h.wmem, fun i hi => ?_⟩
  simp only [State.omemAt, Memory.look_putAll]
  by_cases hin : a ≤ i ∧ i < a + vs.length
  · rw [if_pos hin, if_pos hin, List.getElem?_eq_getElem (by omega), Option.getD_some, Option.getD_some]
  · rw [if_neg hin, if_neg hin]
    exact h.omem i ((hcover i hi).resolve_right hin)

/-- The same bytes stored at the same place of OMEM, under registers of the caller's choice. -/
theorem writeOmem_lockstep (a : Nat) (vs : List Byte) (olen sp : Nat) (phase : Phase)
    (hcover : ∀ i, i < olen → i < s.olen ∨ (a ≤ i ∧ i < a + vs.length)) :
    Lockstep (.next { s with omem := Memory.putAll s.omem a vs, olen := olen, sp := sp, phase := phase })
      (.next { s.withPastOf p with omem := Memory.putAll p.omem a vs, olen := olen, sp := sp, phase := phase }) :=
  have ⟨himem, hwmem, homem⟩ := h.writeOmem a vs olen hcover
  .of_parts rfl ⟨himem, hwmem, homem⟩

/-! ## The operations -/

theorem execCfgchk_lockstep : Lockstep (execCfgchk s) (execCfgchk (s.withPastOf p)) := by
  unfold execCfgchk
  refine .ite (fun _ => raiseError_lockstep h _ _) fun _ => .ite (fun _ => raiseError_lockstep h _ _) fun _ => ?_
  have hcfg : (s.withPastOf p).cfg = s.cfg := rfl
  rw [hcfg]
  cases s.cfg.variant with
  | header => exact .of_parts rfl ⟨h.imem, h.wmem, h.omem⟩
  | headerless => exact .of_parts rfl ⟨h.imem, h.wmem, h.omem⟩

theorem execSigchk_lockstep : Lockstep (execSigchk s) (execSigchk (s.withPastOf p)) := by
  unfold execSigchk
  refine .ite (fun _ => raiseError_lockstep h _ _) fun hlen => .ite (fun _ => .fault _) fun _ => ?_
  rw [h.imemBytes (by omega)]
  exact .ite (fun _ => raiseError_lockstep h _ _) fun _ => .of_parts rfl ⟨h.imem, h.wmem, h.omem⟩

theorem execHdrparse_lockstep : Lockstep (execHdrparse s) (execHdrparse (s.withPastOf p)) := by
  unfold execHdrparse
  refine .ite (fun _ => raiseError_lockstep h _ _) fun hlen => .ite (fun _ => .fault _) fun _ => ?_
  rw [h.imemBytes (by omega), h.imemBytes (by omega), h.imemBytes (by omega)]
  exact .ite (fun _ => raiseError_lockstep h _ _) fun _ => .ite (fun _ => raiseError_lockstep h _ _) fun _ =>
    .ite (fun _ => raiseError_lockstep h _ _) fun _ => .of_parts rfl ⟨h.imem, h.wmem, h.omem⟩

theorem execDecode_lockstep (hnsamp : s.nsamp = s.cp) : Lockstep (execDecode s) (execDecode (s.withPastOf p)) := by
  unfold execDecode
  refine .ite (fun _ => .of_parts rfl ⟨h.imem, h.wmem, h.omem⟩) fun _ => .ite (fun _ => .fault _) fun hread => ?_
  obtain ⟨hlen, _⟩ := (imemReadable_iff _ _ _).mp (Decidable.not_not.mp hread)
  rw [h.currentCode hlen, execCode_eq_exec, execCode_eq_exec, exec_decodeCode, exec_decodeCode]
  exact .ite (fun _ => .fault _) fun _ => .ite (fun _ => .fault _) fun _ => .ite (fun _ => .fault _) fun _ =>
    afterCode_lockstep h hnsamp _ _

theorem execWavhdr_lockstep : Lockstep (execWavhdr s) (execWavhdr (s.withPastOf p)) := by
  unfold execWavhdr
  refine .ite (fun _ => raiseError_lockstep h _ _) fun _ => .ite (fun _ => .fault _) fun _ => ?_
  have hlen := wavHeader_length 0 0 s.rate s.bps
  exact writeOmem_lockstep h 0 (wavHeader 0 0 s.rate s.bps) 44 0 .wavdata fun i hi => .inr (by omega)

theorem execWavdata_lockstep : Lockstep (execWavdata s) (execWavdata (s.withPastOf p)) := by
  unfold execWavdata
  refine .ite (fun _ => .of_parts rfl ⟨h.imem, h.wmem, h.omem⟩) fun _ => .ite (fun _ => .fault _) fun hmore =>
    .ite (fun _ => .fault _) fun _ => .ite (fun _ => .fault _) fun _ => .ite (fun _ => .fault _) fun _ => ?_
  have hread : (s.withPastOf p).wmemAt (s.withPastOf p).sp = s.wmemAt s.sp :=
    (h.wmem _ (Decidable.not_not.mp hmore)).symm
  have hlen := sampleBytes_length (s.wmemAt s.sp) s.prec s.bps
  rw [hread]
  exact writeOmem_lockstep h s.olen (sampleBytes (s.wmemAt s.sp) s.prec s.bps) (s.olen + s.bps) (s.sp + 1) s.phase
    fun i hi => by omega

theorem execBackfill_lockstep : Lockstep (execBackfill s) (execBackfill (s.withPastOf p)) := by
  unfold execBackfill
  refine .ite (fun _ => .fault _) fun _ => .ite (fun _ => .fault _) fun _ => ?_
  have hsizes := (h.writeOmem 4 (le 4 (s.olen - 8)) s.olen fun _ => .inl).writeOmem 40 (le 4 (s.olen - 44)) s.olen
    fun _ => .inl
  exact .of_parts rfl ⟨hsizes.imem, hsizes.wmem, hsizes.omem⟩

end Operations

/-! ## Steps -/

/-- The operation that PHASE selects does the same in two blocks that agree. The invariant gives DECODE that the next
sample is the one at `CP`. -/
theorem operation_lockstep {s t : State} {i : Instr} (hinv : BlockInv s) (hop : s.phase.operation = some i)
    (hsame : SameRun s t) : Lockstep (exec i s) (exec i t) := by
  obtain ⟨ht, h⟩ := (sameRun_iff s t).mp hsame
  rw [ht]
  cases hp : s.phase <;> rw [hp] at hop <;> cases hop
  case cfgchk => exact execCfgchk_lockstep h
  case sigchk => exact execSigchk_lockstep h
  case hdrparse => exact execHdrparse_lockstep h
  case decode =>
    have hphase := hinv.phase
    rw [PhaseInv, hp] at hphase
    obtain ⟨⟨_, _, _, ⟨hnsamp, _⟩, _⟩, _⟩ := hphase
    exact execDecode_lockstep h hnsamp
  case wavhdr => exact execWavhdr_lockstep h
  case wavdata => exact execWavdata_lockstep h
  case backfill => exact execBackfill_lockstep h

theorem Lockstep.next_left {s : State} {o : Out} (h : Lockstep (.next s) o) : ∃ t, o = .next t ∧ SameRun s t := by
  cases h with
  | next h => exact ⟨_, rfl, h⟩

theorem blockMoves_of_agenda_nil {s : State} (h : s.agenda = []) : s.blockMoves = true := by
  rw [State.blockMoves, h]

/-- A step of the block takes its turn off the agenda and leaves the rest. -/
theorem step_agenda {s t : State} (hblock : s.blockMoves = true) (hstep : step s = .next t) :
    t.agenda = s.agenda.tail := by
  cases hop : s.phase.operation with
  | none =>
    rw [step_of_no_operation hblock hop] at hstep
    cases hstep
    rfl
  | some i =>
    rw [step_of_operation hblock hop] at hstep
    obtain ⟨⟨_, _, _, hagenda, _⟩, _⟩ := runConfigurationConstant i _ t hstep
    exact hagenda

/-- Two blocks that agree still agree after the block's turn, which neither stops at. -/
theorem SameRun.step {s t : State} (hsame : SameRun s t) (hinv : BlockInv s) (hs : s.blockMoves = true) :
    ∃ s' t', Machine.step s = .next s' ∧ Machine.step t = .next t' ∧ SameRun s' t' := by
  obtain ⟨hpast, _⟩ := (sameRun_iff s t).mp hsame
  have ht : t.blockMoves = true := by rw [hpast]; exact hs
  have hphase : t.phase = s.phase := by rw [hpast]; rfl
  cases hop : s.phase.operation with
  | none => exact ⟨_, _, step_of_no_operation hs hop, step_of_no_operation ht (by rw [hphase, hop]), hsame.popTurn⟩
  | some i =>
    rw [step_of_operation hs hop, step_of_operation ht (by rw [hphase, hop])]
    have hlock := operation_lockstep hinv.popTurn hop hsame.popTurn
    obtain ⟨s', hs'⟩ := operation_completes hinv.popTurn hop
    rw [hs'] at hlock
    obtain ⟨t', ht', hsame'⟩ := hlock.next_left
    exact ⟨s', t', hs', ht', hsame'⟩

/-! ## Runs -/

theorem core_run_succ {M : Host.Core} {s t : M.State} (k : Nat) (h : M.step s = .next t) :
    M.run (k + 1) s = M.run k t := by
  rw [Host.Core.run, h]

theorem runFor_one_add {s t : State} (k : Nat) (h : step s = .next t) : runFor (1 + k) s = runFor k t := by
  rw [Nat.add_comm]
  exact core_run_succ (M := core) k h

/-- Two blocks that agree and are left to themselves agree after every number of steps. -/
theorem SameRun.runFor (k : Nat) {s t : State} (hsame : SameRun s t) (hinv : BlockInv s) (hs : s.agenda = []) :
    ∃ s' t', Machine.runFor k s = .next s' ∧ Machine.runFor k t = .next t' ∧ SameRun s' t' := by
  induction k generalizing s t with
  | zero => exact ⟨s, t, rfl, rfl, hsame⟩
  | succ k ih =>
    have hblock := blockMoves_of_agenda_nil hs
    obtain ⟨u, v, hu, hv, hsame'⟩ := hsame.step hinv hblock
    have hagenda : u.agenda = [] := by rw [step_agenda hblock hu, hs, List.tail_nil]
    rw [Nat.add_comm, runFor_one_add k hu, runFor_one_add k hv]
    exact ih hsame' (stepKeepsInv s u hinv hu) hagenda

/-- The host's START to a block that is not busy (45_host_commands.md R250). -/
theorem step_start {s : State} {rest : List Turn} (hbusy : s.busy = false)
    (h : s.agenda = .outside (.writeReg 0 1#32) :: rest) : step s = .next (clearRun .cfgchk s.popTurn) := by
  rw [step_command s _ rest h]
  show execStart s.popTurn = _
  rw [execStart, popTurn_busy, hbusy, if_neg Bool.false_ne_true]

/-- START makes two blocks with the same inputs agree: the registers are cleared, and with NSAMP and OLEN 0 no element of
WMEM or OMEM is valid. -/
theorem SameInputs.clearRun {s t : State} (h : SameInputs s t) (hagenda : s.agenda = t.agenda) (p : Phase) :
    SameRun (clearRun p s) (clearRun p t) :=
  ⟨h, rfl, rfl, rfl, rfl, rfl, rfl, rfl, rfl, rfl, rfl, rfl, rfl, rfl, hagenda,
    fun _ hi => absurd hi (Nat.not_lt_zero _), fun _ hi => absurd hi (Nat.not_lt_zero _)⟩

/-- Settles O38: START erases the past, and from there the two blocks move in lockstep. -/
theorem runsForgetTheirPast : Obligations.RunsForgetTheirPast := by
  intro s t hs _ hsbusy htbusy hsame hsagenda htagenda k
  rw [runFor_one_add k (step_start hsbusy hsagenda), runFor_one_add k (step_start htbusy htagenda)]
  have hstail : s.popTurn.agenda = [] := by rw [popTurn_agenda, hsagenda, List.tail_cons]
  have httail : t.popTurn.agenda = [] := by rw [popTurn_agenda, htagenda, List.tail_cons]
  have hcleared : SameRun (clearRun .cfgchk s.popTurn) (clearRun .cfgchk t.popTurn) :=
    SameInputs.clearRun (s := s.popTurn) (t := t.popTurn) hsame (hstail.trans httail.symm) .cfgchk
  exact hcleared.runFor k (hs.popTurn.clearRun (.inr rfl)) hstail

end Sys2Proof.Machine
end

section
/-! PROOF. The sixteen codes: what each of them answers, what it leaves unchanged, and the bounds of its difference and of
its sample (41_adpcm_decoder.md R140 to R165). -/

namespace Sys2Proof.Machine

/-! ## The shared operation where it is defined -/

/-- `T[i]` as an entry of the table in use. -/
theorem stepAt_eq_getD (p : Params) (pr : Profile) (i : Nat) : stepAt p pr i = (tableOf p pr).getD i 0 := by
  cases pr <;> rfl

theorem currentStep_of_stepIs {s : State} {t : Nat} (h : StepIs s t) : s.currentStep = t := by
  rw [State.currentStep, stepAt_eq_getD, List.getD_eq_getElem?_getD, h, Option.getD_some]

theorem moveCursor_eq_cursorAfter (s : State) (a : Int) :
    moveCursor s.cfg.profile.length s.idx a = cursorAfter s a :=
  moveCursor_eq_max_min (length_pos _) s.idx a

theorem emitSample_of_codeDefined {s : State} (hdef : CodeDefined s) (d a : Int) :
    emitSample d a s = .next (afterCode d (cursorAfter s a) s) := by
  rw [← moveCursor_eq_cursorAfter]
  exact (emitSample_next_iff d a s _).mpr ⟨hdef, rfl⟩

/-- Settles O9: each meaning is the shared operation with the difference and the adjustment of its rule. -/
theorem positiveCodesResult : Obligations.PositiveCodesResult := by
  intro s t hdef hstep
  obtain rfl := currentStep_of_stepIs hstep
  have hemit := emitSample_of_codeDefined hdef
  exact ⟨⟨rfl, hemit _ _⟩, ⟨rfl, hemit _ _⟩, ⟨rfl, hemit _ _⟩, ⟨rfl, hemit _ _⟩,
    ⟨rfl, hemit _ _⟩, ⟨rfl, hemit _ _⟩, ⟨rfl, hemit _ _⟩, ⟨rfl, hemit _ _⟩⟩

/-- Settles O10: as for P0 to P7, with the difference subtracted. -/
theorem negativeCodesResult : Obligations.NegativeCodesResult := by
  intro s t hdef hstep
  obtain rfl := currentStep_of_stepIs hstep
  have hemit := emitSample_of_codeDefined hdef
  exact ⟨⟨rfl, hemit _ _⟩, ⟨rfl, hemit _ _⟩, ⟨rfl, hemit _ _⟩, ⟨rfl, hemit _ _⟩,
    ⟨rfl, hemit _ _⟩, ⟨rfl, hemit _ _⟩, ⟨rfl, hemit _ _⟩, ⟨rfl, hemit _ _⟩⟩

/-! ## The general rule (R141) -/

/-- The three magnitude bits as digits of the code's number. -/
theorem bit_eq_digit :
    ∀ c : Code, Code.bit c 0 = c.toNat % 2 ∧ Code.bit c 1 = c.toNat / 2 % 2 ∧ Code.bit c 2 = c.toNat / 4 % 2 := by
  decide

theorem difference_eq_sign_mul (t : Nat) (c : Code) :
    difference t c = (if c.getLsbD 3 then (-1 : Int) else 1) * (magnitude t c : Int) := by
  rw [difference, Code.sign]
  split
  · rw [Int.neg_one_mul]
  · rw [Int.one_mul]

theorem exec_decodeCode_of_codeDefined {s : State} {t : Nat} (c : Code) (hdef : CodeDefined s) (hstep : StepIs s t) :
    exec (decodeCode c) s = .next (afterCode (difference t c) (cursorAfter s (adjust (Code.selector c))) s) := by
  rw [exec_decodeCode, currentStep_of_stepIs hstep, emitSample_of_codeDefined hdef]

/-- Settles O11: the difference written with the code's digits, the adjustment as the table's entry. -/
theorem codesFollowGeneralRule : Obligations.CodesFollowGeneralRule := by
  intro c s t hdef hstep
  obtain ⟨hbit0, hbit1, hbit2⟩ := bit_eq_digit c
  rw [exec_decodeCode_of_codeDefined c hdef hstep, difference_eq_sign_mul, magnitude, hbit0, hbit1, hbit2,
    adjust_selector_eq_getD]

/-! ## The difference's bounds (R143) -/

theorem bit_le_one (c : Code) (k : Nat) : Code.bit c k ≤ 1 := by
  rw [Code.bit]
  split <;> decide

theorem bit_flipSign :
    ∀ c : Code, Code.bit (c ^^^ 0x8#4) 0 = Code.bit c 0 ∧ Code.bit (c ^^^ 0x8#4) 1 = Code.bit c 1
      ∧ Code.bit (c ^^^ 0x8#4) 2 = Code.bit c 2 := by decide

theorem sign_flipSign : ∀ c : Code, Code.sign (c ^^^ 0x8#4) = !Code.sign c := by decide

theorem magnitude_flipSign (t : Nat) (c : Code) : magnitude t (c ^^^ 0x8#4) = magnitude t c := by
  obtain ⟨hbit0, hbit1, hbit2⟩ := bit_flipSign c
  rw [magnitude, hbit0, hbit1, hbit2, ← magnitude]

theorem difference_flipSign (t : Nat) (c : Code) : difference t (c ^^^ 0x8#4) = -difference t c := by
  rw [difference, difference, magnitude_flipSign, sign_flipSign]
  cases Code.sign c
  · rfl
  · exact (Int.neg_neg _).symm

theorem magnitude_le (t : Nat) (c : Code) : magnitude t c ≤ t + (t >>> 1) + (t >>> 2) + (t >>> 3) := by
  have hterm (n k : Nat) : n * Code.bit c k ≤ n :=
    Nat.le_trans (Nat.mul_le_mul_left n (bit_le_one c k)) (Nat.le_of_eq (Nat.mul_one n))
  exact Nat.add_le_add_right (Nat.add_le_add (Nat.add_le_add (hterm _ _) (hterm _ _)) (hterm _ _)) _

/-- Each shift takes at least half of what the one before left. -/
theorem shifts_lt_two_mul {t : Nat} (ht : 0 < t) : t + (t >>> 1) + (t >>> 2) + (t >>> 3) < 2 * t := by
  simp only [Nat.shiftRight_eq_div_pow]
  omega

/-- Settles O16: the meaning by the general rule, the bounds by those of the three selected terms. -/
theorem differenceBounds : Obligations.DifferenceBounds := by
  refine ⟨fun c s t hdef hstep => ?meaning, fun t c => ⟨Nat.le_add_left _ _, magnitude_le t c, shifts_lt_two_mul, ?zero,
    (magnitude_flipSign t c).symm, difference_flipSign t c⟩⟩
  case meaning =>
    rw [advance, moveCursor_eq_cursorAfter]
    exact exec_decodeCode_of_codeDefined c hdef hstep
  case zero =>
    rintro rfl
    exact Nat.le_zero.mp (magnitude_le 0 c)

/-! ## What a code changes -/

theorem exec_code_next {i : Instr} {s t : State} (hcode : isCode i = true) (hexec : exec i s = .next t) :
    CodeDefined s ∧ ∃ d j, t = afterCode d j s := by
  obtain ⟨d, a, hemit⟩ := exec_isCode i hcode s
  obtain ⟨hdef, ht⟩ := (emitSample_next_iff d a s t).mp (hemit ▸ hexec)
  exact ⟨hdef, d, _, ht⟩

theorem afterCode_wmemAt_same (d : Int) (j : Nat) (s : State) :
    (afterCode d j s).wmemAt s.cp = (afterCode d j s).acc :=
  congrArg (Option.getD · _) (Memory.look_put_same s.wmem s.cp _)

theorem afterCode_wmemAt_other (d : Int) (j : Nat) (s : State) {a : Nat} (ha : a ≠ s.cp) :
    (afterCode d j s).wmemAt a = s.wmemAt a :=
  congrArg (Option.getD · _) (Memory.look_put_other s.wmem s.cp a _ ha)

/-- Settles O13: `afterCode` writes IDX, ACC, CP, NSAMP and one element of WMEM. -/
theorem codesFrame : Obligations.CodesFrame := by
  intro i s t hcode hexec
  obtain ⟨_, d, j, rfl⟩ := exec_code_next hcode hexec
  exact ⟨⟨rfl, rfl, rfl, rfl, rfl, rfl, rfl⟩, ⟨rfl, rfl, rfl, rfl⟩, rfl, rfl, rfl, rfl, rfl, fun _ => rfl,
    fun _ => rfl, fun _ => afterCode_wmemAt_other d j s, afterCode_wmemAt_same d j s⟩

/-- The clamp puts every sample in the range of the precision (R140). -/
theorem afterCode_acc_bounds (d : Int) (j : Nat) (s : State) :
    sampleMin s.prec ≤ (afterCode d j s).acc ∧ (afterCode d j s).acc ≤ sampleMax s.prec :=
  ⟨le_clampInt (sampleMin_le_sampleMax s.prec), clampInt_le (sampleMin_le_sampleMax s.prec)⟩

/-- Settles O17: the clamp's range, which is inside the signed 16-bit numbers for every precision a code accepts. -/
theorem codeSampleInRange : Obligations.CodeSampleInRange := by
  intro i s t hcode hexec
  obtain ⟨⟨_, _, hprec, _⟩, d, j, rfl⟩ := exec_code_next hcode hexec
  obtain ⟨hlo, hhi⟩ := afterCode_acc_bounds d j s
  obtain ⟨hmin, hmax⟩ := sample_fits hprec
  exact ⟨hlo, hhi, Int.le_trans hmin hlo, Int.le_trans hhi hmax, Memory.look_put_same s.wmem s.cp _, rfl, rfl⟩

end Sys2Proof.Machine
end

section
/-! PROOF. The DECODE phase in closed form: `n` steps leave the samples, the accumulator and the cursor of the recurrence
R142 for the next `n` codes of the payload. First runs of several steps, then the payload's codes, then the phase. -/

namespace Sys2Proof.Machine

/-! ## Runs -/

/-- A run that answers a next state was not stopped by its first step. -/
theorem core_run_succ_next {M : Host.Core} {k : Nat} {s t : M.State} (hrun : M.run (k + 1) s = .next t) :
    ∃ u, M.step s = .next u ∧ M.run k u = .next t := by
  cases hstep : M.step s with
  | next u => exact ⟨u, rfl, (core_run_succ k hstep).symm.trans hrun⟩
  | fault f => rw [Host.Core.run, hstep] at hrun; cases hrun
  | refused r => rw [Host.Core.run, hstep] at hrun; cases hrun

theorem core_run_trans {M : Host.Core} {j k : Nat} {s t : M.State} {o : Host.Outcome M.State M.Fault M.Refusal}
    (hfirst : M.run j s = .next t) (hrest : M.run k t = o) : M.run (j + k) s = o := by
  induction j generalizing s with
  | zero =>
    cases hfirst
    rwa [Nat.zero_add]
  | succ j ih =>
    obtain ⟨u, hstep, hfirst⟩ := core_run_succ_next hfirst
    rw [Nat.add_right_comm, core_run_succ _ hstep]
    exact ih hfirst

theorem runFor_trans {j k : Nat} {s t : State} {o : Out} (hfirst : runFor j s = .next t) (hrest : runFor k t = o) :
    runFor (j + k) s = o :=
  core_run_trans (M := core) hfirst hrest

theorem core_run_invariant {M : Host.Core} {P : M.State → Prop} (hstep : ∀ s t, P s → M.step s = .next t → P t)
    {k : Nat} {s t : M.State} (h : P s) (hrun : M.run k s = .next t) : P t := by
  induction k generalizing s with
  | zero => cases hrun; exact h
  | succ k ih =>
    obtain ⟨u, hs, hrun⟩ := core_run_succ_next hrun
    exact ih (hstep s u h hs) hrun

theorem BlockInv.runFor {k : Nat} {s t : State} (h : BlockInv s) (hrun : runFor k s = .next t) : BlockInv t :=
  core_run_invariant (M := core) stepKeepsInv h hrun

theorem popTurn_of_agenda_nil {s : State} (h : s.agenda = []) : s.popTurn = s := by
  rw [State.popTurn, h, List.tail_nil, ← h]

/-- A block left to itself runs the operation of PHASE in the state it is in. -/
theorem runFor_operation {s t : State} {p : Phase} {i : Instr} (hagenda : s.agenda = []) (hp : s.phase = p)
    (hop : p.operation = some i) (hexec : exec i s = .next t) : runFor 1 s = .next t := by
  have hstep : step s = .next t := by
    rw [step_of_operation (blockMoves_of_agenda_nil hagenda) (hp ▸ hop), popTurn_of_agenda_nil hagenda, hexec]
  exact runFor_one_add 0 hstep

/-! ## A run of written elements -/

/-- The elements from `a` on hold the values of a list. -/
def Memory.Holds {α : Type} (m : Memory α) (a : Nat) (vs : List α) : Prop :=
  ∀ k v, vs[k]? = some v → Memory.look m (a + k) = some v

theorem Memory.holds_putAll {α : Type} (m : Memory α) (a : Nat) (vs : List α) :
    Memory.Holds (Memory.putAll m a vs) a vs := by
  intro k v hv
  obtain ⟨hk, _⟩ := List.getElem?_eq_some_iff.mp hv
  rw [Memory.look_putAll, if_pos (by omega), Nat.add_sub_cancel_left, hv]

theorem Memory.Holds.head {α : Type} {m : Memory α} {a : Nat} {v : α} {vs : List α} (h : Memory.Holds m a (v :: vs)) :
    Memory.look m a = some v := h 0 v rfl

theorem Memory.Holds.tail {α : Type} {m : Memory α} {a : Nat} {v : α} {vs : List α} (h : Memory.Holds m a (v :: vs)) :
    Memory.Holds m (a + 1) vs := by
  intro k w hw
  rw [Nat.add_assoc, Nat.add_comm 1 k]
  exact h (k + 1) w hw

theorem wmemSamples_of_holds {s : State} {a : Nat} {vs : List Int} (h : Memory.Holds s.wmem a vs) :
    s.wmemSamples a vs.length = vs := by
  induction vs generalizing a with
  | nil => rfl
  | cons v vs ih => rw [List.length_cons, State.wmemSamples, ih h.tail, State.wmemAt, h.head, Option.getD_some]

/-! ## The payload's codes (42_cmp_source.md R184, R185) -/

/-- The codes of the stream in playback order. -/
def State.payloadCodes (s : State) : List Code :=
  unpackCodes s.cfg.nibord (s.imemBytes s.poff (s.ilen - s.poff))

/-- The next `n` codes from `CP` on. -/
def State.nextCodes (s : State) (n : Nat) : List Code := (s.payloadCodes.drop s.cp).take n

theorem payloadCodes_length (s : State) : s.payloadCodes.length = 2 * (s.ilen - s.poff) := by
  rw [State.payloadCodes, unpackCodes_length, imemBytes_length]

/-- Code `j` of a payload is in byte `j div 2`, and plays there as the parity of `j` says. -/
theorem unpackCodes_getElem? (ord : NibOrder) (bs : List Byte) (j : Nat) :
    (unpackCodes ord bs)[j]? = bs[j / 2]?.map (nib ord · (j % 2)) := by
  induction bs generalizing j with
  | nil => rfl
  | cons b bs ih =>
    match j with
    | 0 => rfl
    | 1 => rfl
    | j + 2 =>
      rw [unpackCodes, List.getElem?_cons_succ, List.getElem?_cons_succ, ih, Nat.add_div_right j (by decide),
        List.getElem?_cons_succ, Nat.add_mod_right]

theorem payloadCodes_getElem?_cp {s : State} (hmore : (s.cp : Int) < s.codeCount) :
    s.payloadCodes[s.cp]? = some s.currentCode := by
  rw [State.codeCount] at hmore
  rw [State.payloadCodes, unpackCodes_getElem?, imemBytes_get s _ _ _ (by omega)]
  rfl

theorem payloadCodes_afterCode (d : Int) (j : Nat) (s : State) : (afterCode d j s).payloadCodes = s.payloadCodes :=
  congrArg (unpackCodes s.cfg.nibord) (imemBytes_congr _ s s.poff (s.ilen - s.poff) fun _ _ _ => rfl)

theorem nextCodes_succ {s : State} (hmore : (s.cp : Int) < s.codeCount) (d : Int) (j n : Nat) :
    s.nextCodes (n + 1) = s.currentCode :: (afterCode d j s).nextCodes n := by
  obtain ⟨hcp, hcode⟩ := List.getElem?_eq_some_iff.mp (payloadCodes_getElem?_cp hmore)
  rw [State.nextCodes, List.drop_eq_getElem_cons hcp, hcode, List.take_succ_cons, State.nextCodes,
    payloadCodes_afterCode, afterCode_cp]

theorem nextCodes_length {s : State} {n : Nat} (hn : (s.cp : Int) + n ≤ s.codeCount) : (s.nextCodes n).length = n := by
  rw [State.codeCount] at hn
  rw [State.nextCodes, List.length_take, List.length_drop, payloadCodes_length]
  omega

/-! ## One code and the recurrence (41_adpcm_decoder.md R141, R142) -/

theorem magnitude_eq_div (t : Nat) (c : Code) :
    magnitude t c = t * Code.bit c 2 + (t / 2) * Code.bit c 1 + (t / 4) * Code.bit c 0 + t / 8 := by
  simp only [magnitude, Nat.shiftRight_eq_div_pow, Nat.reducePow]

/-- The recurrence's step is what a code leaves in ACC and IDX. -/
theorem decodeOne_eq_afterCode (c : Code) (s : State) :
    decodeOne s.par s.cfg.profile s.prec s.acc s.idx c
      = ((afterCode (difference s.currentStep c) (advance s.cfg.profile.length s.idx c) s).acc,
          advance s.cfg.profile.length s.idx c) := by
  have hclamp (x : Int) : clampInt x (-(2 ^ (s.prec - 1))) (2 ^ (s.prec - 1) - 1)
      = max (-(2 ^ (s.prec - 1))) (min x (2 ^ (s.prec - 1) - 1)) := clampInt_eq_max_min (sampleMin_le_sampleMax s.prec)
  rw [afterCode_acc, hclamp, advance, moveCursor_eq_max_min (length_pos _), difference, magnitude_eq_div]
  rfl

/-- The block after the codes `cs`, in closed form. -/
def State.decoded (s : State) (cs : List Code) : State :=
  { s with
    wmem := Memory.putAll s.wmem s.cp (decodeFrom s.par s.cfg.profile s.prec s.acc s.idx cs)
    acc := (decodeEnd s.par s.cfg.profile s.prec s.acc s.idx cs).1
    idx := (decodeEnd s.par s.cfg.profile s.prec s.acc s.idx cs).2
    cp := s.cp + cs.length
    nsamp := s.nsamp + cs.length }

theorem decoded_cons (s : State) (c : Code) (cs : List Code) :
    s.decoded (c :: cs)
      = (afterCode (difference s.currentStep c) (advance s.cfg.profile.length s.idx c) s).decoded cs := by
  rw [State.decoded, decodeFrom, decodeEnd, decodeOne_eq_afterCode, List.length_cons, Nat.add_comm cs.length 1,
    ← Nat.add_assoc, ← Nat.add_assoc]
  rfl

theorem decodeFrom_length (p : Params) (pr : Profile) (prec : Nat) (a : Int) (i : Nat) (cs : List Code) :
    (decodeFrom p pr prec a i cs).length = cs.length := by
  induction cs generalizing a i with
  | nil => rfl
  | cons c cs ih => rw [decodeFrom, List.length_cons, ih, List.length_cons]

/-! ## The phase -/

theorem BlockInv.decode_inStream {s : State} (h : BlockInv s) (hp : s.phase = .decode) : InStream s := by
  have hphase := h.phase
  rw [PhaseInv, hp] at hphase
  obtain ⟨hstream, _⟩ := hphase
  exact hstream

/-- With a code left, DECODE executes it by the general rule. -/
theorem exec_decode_code {s : State} (h : InStream s) (hmore : (s.cp : Int) < s.codeCount) :
    exec .decode s
      = .next (afterCode (difference s.currentStep s.currentCode)
          (advance s.cfg.profile.length s.idx s.currentCode) s) := by
  rw [exec_decode_fetched (by omega) (h.code_readable hmore), exec_decodeCode]
  exact (emitSample_next_iff _ _ s _).mpr ⟨h.codeDefined hmore, rfl⟩

theorem runFor_decode {s : State} {n : Nat} (h : BlockInv s) (hp : s.phase = .decode) (hagenda : s.agenda = [])
    (hn : (s.cp : Int) + n ≤ s.codeCount) : runFor n s = .next (s.decoded (s.nextCodes n)) := by
  induction n generalizing s with
  | zero => rfl
  | succ n ih =>
    have hmore : (s.cp : Int) < s.codeCount := by omega
    have hexec := exec_decode_code (h.decode_inStream hp) hmore
    have hinv := execDecode_keepsInv h hp hexec
    rw [nextCodes_succ hmore, decoded_cons, Nat.add_comm n 1]
    refine runFor_trans (runFor_operation hagenda hp rfl hexec) (ih hinv hp hagenda ?_)
    rw [State.codeCount] at hn ⊢
    rw [afterCode_cp, afterCode_ilen, afterCode_poff]
    omega

/-- From the first code on the phase takes all codes of the payload and the step that ends it (R319). -/
theorem runFor_decode_all {s : State} (h : BlockInv s) (hp : s.phase = .decode) (hagenda : s.agenda = [])
    (hcp : s.cp = 0) :
    runFor (s.payloadCodes.length + 1) s = .next { s.decoded s.payloadCodes with phase := .wavhdr } := by
  obtain ⟨_, _, hmeta, _⟩ := h.decode_inStream hp
  obtain ⟨_, _, _, _, hpoff⟩ := hmeta.ranges
  have hcount : (s.payloadCodes.length : Int) = s.codeCount := by
    rw [payloadCodes_length, State.codeCount]
    omega
  have hall : s.nextCodes s.payloadCodes.length = s.payloadCodes := by
    rw [State.nextCodes, hcp, List.drop_zero, List.take_length]
  have hrun := runFor_decode (n := s.payloadCodes.length) h hp hagenda (by omega)
  rw [hall] at hrun
  have hend : DecodeComplete (s.decoded s.payloadCodes) := by
    show ((s.cp + s.payloadCodes.length : Nat) : Int) = s.codeCount
    omega
  exact runFor_trans hrun (runFor_operation hagenda hp rfl (if_pos hend))

/-- Settles O18: the closed form of the phase, read at the elements written and at those before. -/
theorem waveformFollowsRecurrence : Obligations.WaveformFollowsRecurrence := by
  intro s n hinv hp hagenda hn
  have hlen : (s.nextCodes n).length = n := nextCodes_length hn
  refine ⟨s.decoded (s.nextCodes n), runFor_decode hinv hp hagenda hn, ?samples, rfl, congrArg (s.cp + ·) hlen,
    congrArg (s.nsamp + ·) hlen, hp, fun a ha => ?before⟩
  case samples =>
    have hholds := wmemSamples_of_holds (s := s.decoded (s.nextCodes n)) (Memory.holds_putAll s.wmem s.cp _)
    rwa [decodeFrom_length, hlen] at hholds
  case before =>
    exact congrArg (Option.getD · _) (Memory.look_putAll_outside s.wmem s.cp _ a (.inl ha))

end Sys2Proof.Machine
end

section
/-! PROOF. The front end where no check fails, in closed form: the block at the start of the stream, with the metadata of
the file in IMEM (42_cmp_source.md R180 to R182). -/

namespace Sys2Proof.Machine

/-! ## No check fails (60_exceptions.md R285) -/

theorem check_passed {α : Type} {c : Prop} [Decidable c] {e : α} {rest : Option α}
    (h : (if c then some e else rest) = none) : ¬ c ∧ rest = none := by
  split at h
  · cases h
  · next hc => exact ⟨hc, h⟩

theorem headerVerdict_none {s : State} (h : headerVerdict s = none) :
    14 ≤ s.ilen ∧ s.imemBytes 0 4 = s.par.sigExpected.toList ∧ leVal (s.imemBytes 12 2) = 16
      ∧ ¬ (s.par.checkPaysize = true ∧ s.ilen - 14 < leVal (s.imemBytes 4 4))
      ∧ leVal (s.imemBytes 8 4) * s.bps < 2 ^ 32 := by
  obtain ⟨_, h⟩ := check_passed h
  obtain ⟨hsig, h⟩ := check_passed h
  obtain ⟨hlen, h⟩ := check_passed h
  obtain ⟨hprec, h⟩ := check_passed h
  obtain ⟨hsize, h⟩ := check_passed h
  obtain ⟨hrate, _⟩ := check_passed h
  exact ⟨Nat.not_lt.mp hlen, Decidable.not_not.mp hsig, Decidable.not_not.mp hprec, hsize, Nat.not_le.mp hrate⟩

theorem capacityVerdict_none {s : State} (h : capacityVerdict s = none) : 44 + s.fileCodes * s.bps ≤ s.par.ocap :=
  Nat.not_lt.mp (check_passed h).1

theorem verdict_none {s : State} (h : verdict s = none) :
    ConfigChecked s ∧ 44 + s.fileCodes * s.bps ≤ s.par.ocap
      ∧ (s.cfg.variant = .header → headerVerdict s = none) := by
  obtain ⟨hbps, h⟩ := check_passed h
  obtain ⟨hlen, h⟩ := check_passed h
  have hcfg : ConfigChecked s := ⟨by omega, by omega, Nat.not_lt.mp hlen⟩
  split at h
  · next hvar => exact ⟨hcfg, capacityVerdict_none h, fun hheader => by rw [hvar] at hheader; cases hheader⟩
  · split at h
    · cases h
    · next hheader => exact ⟨hcfg, capacityVerdict_none h, fun _ => hheader⟩

/-- The steps from CFGCHK to DECODE (R319). -/
def State.frontSteps (s : State) : Nat := match s.cfg.variant with | .headerless => 1 | .header => 3

theorem runLength_of_verdict_none {s : State} (h : verdict s = none) :
    runLength s = s.frontSteps + (s.fileCodes + 1) + 1 + (s.fileCodes + 1) + 1 := by
  rw [runLength, h]
  rfl

/-! ## The front end -/

theorem ConfigChecked.checks_pass {s : State} (h : ConfigChecked s) :
    ¬ (s.bps = 0 ∨ Config.bMax < s.bps) ∧ ¬ s.par.icap < s.ilen := by
  obtain ⟨hlo, hhi, hlen⟩ := h
  omega

theorem execCfgchk_header {s : State} (h : ConfigChecked s) (hvar : s.cfg.variant = .header) :
    execCfgchk s = .next { s with phase := .sigchk } := by
  obtain ⟨hbps, hlen⟩ := h.checks_pass
  rw [execCfgchk, if_neg hbps, if_neg hlen, hvar]

theorem execCfgchk_headerless {s : State} (h : ConfigChecked s) (hvar : s.cfg.variant = .headerless) :
    execCfgchk s = .next { s with
      rate := Config.defRate, prec := Config.defPrec, paysize := 0, poff := 0, phase := .decode } := by
  obtain ⟨hbps, hlen⟩ := h.checks_pass
  rw [execCfgchk, if_neg hbps, if_neg hlen, hvar]

/-- The block at the start of the stream: the metadata of the file in IMEM, in phase DECODE. -/
def State.streamStart (s : State) (paysize : Nat) : State :=
  { s with rate := s.fileRate, prec := s.filePrec, paysize := paysize, poff := s.payloadStart, phase := .decode }

theorem runFor_front_headerless {s : State} (hp : s.phase = .cfgchk) (hagenda : s.agenda = []) (hcfg : ConfigChecked s)
    (hvar : s.cfg.variant = .headerless) : runFor 1 s = .next (s.streamStart 0) := by
  have hexec : exec .cfgchk s = .next (s.streamStart 0) := by
    rw [exec, execCfgchk_headerless hcfg hvar, State.streamStart, State.fileRate, State.filePrec, State.payloadStart,
      hvar]
  exact runFor_operation hagenda hp rfl hexec

theorem runFor_front_header {s : State} (hp : s.phase = .cfgchk) (hagenda : s.agenda = []) (hcfg : ConfigChecked s)
    (hvar : s.cfg.variant = .header) (hheader : headerVerdict s = none) :
    runFor 3 s = .next (s.streamStart (leVal (s.imemBytes 4 4))) := by
  obtain ⟨hlen, hsig, hprec, hsize, hrate⟩ := headerVerdict_none hheader
  have ⟨_, _, hicap⟩ := hcfg
  have hcap : 14 ≤ s.par.icap := Nat.le_trans hlen hicap
  have hcfgchk : exec .cfgchk s = .next { s with phase := .sigchk } := execCfgchk_header hcfg hvar
  have hsigchk : exec .sigchk { s with phase := .sigchk } = .next { s with phase := .hdrparse } :=
    execSigchk_pass (s := { s with phase := .sigchk }) (Nat.le_of_add_right_le (k := 10) hlen)
      (Nat.le_of_add_right_le (k := 10) hcap) hsig
  have hhdrparse : exec .hdrparse { s with phase := .hdrparse }
      = .next (s.streamStart (leVal (s.imemBytes 4 4))) := by
    rw [exec, execHdrparse_pass (s := { s with phase := .hdrparse }) hlen hcap hprec hsize hrate,
      State.streamStart, State.fileRate, State.filePrec, State.payloadStart, hvar, hprec]
    rfl
  exact runFor_trans (runFor_operation hagenda hp rfl hcfgchk)
    (runFor_trans (runFor_operation hagenda rfl rfl hsigchk) (runFor_operation hagenda rfl rfl hhdrparse))

theorem runFor_front {s : State} (hp : s.phase = .cfgchk) (hagenda : s.agenda = []) (h : verdict s = none) :
    ∃ paysize, runFor s.frontSteps s = .next (s.streamStart paysize) := by
  obtain ⟨hcfg, _, hheader⟩ := verdict_none h
  rw [State.frontSteps]
  cases hvar : s.cfg.variant with
  | headerless => exact ⟨_, runFor_front_headerless hp hagenda hcfg hvar⟩
  | header => exact ⟨_, runFor_front_header hp hagenda hcfg hvar (hheader hvar)⟩

end Sys2Proof.Machine
end

section
/-! PROOF. The serializer in closed form: from WAVHDR to DONE it leaves the WAV file of the samples in WMEM
(44_wav_sink.md R222 to R228). -/

namespace Sys2Proof.Machine

/-! ## A run of written elements, and a part of it written over -/

theorem Memory.putAll_append {α : Type} (m : Memory α) (a : Nat) (us vs : List α) :
    Memory.putAll m a (us ++ vs) = Memory.putAll (Memory.putAll m a us) (a + us.length) vs := by
  induction us generalizing m a with
  | nil => rfl
  | cons u us ih =>
    rw [List.cons_append, Memory.putAll, ih, Memory.putAll, List.length_cons, Nat.add_right_comm, Nat.add_assoc]

theorem Memory.holds_append {α : Type} {m : Memory α} {a : Nat} {us vs : List α} :
    Memory.Holds m a (us ++ vs) ↔ Memory.Holds m a us ∧ Memory.Holds m (a + us.length) vs := by
  constructor
  · refine fun h => ⟨fun k v hv => h k v ?_, fun k v hv => ?_⟩
    · obtain ⟨hk, _⟩ := List.getElem?_eq_some_iff.mp hv
      rw [List.getElem?_append_left hk, hv]
    · rw [Nat.add_assoc]
      exact h _ v (by rw [List.getElem?_append_right (Nat.le_add_right _ _), Nat.add_sub_cancel_left, hv])
  · rintro ⟨hus, hvs⟩ k v hv
    by_cases hk : k < us.length
    · rw [List.getElem?_append_left hk] at hv
      exact hus k v hv
    · rw [List.getElem?_append_right (Nat.not_lt.mp hk)] at hv
      have hlook := hvs _ v hv
      rwa [Nat.add_assoc, Nat.add_sub_cancel' (Nat.not_lt.mp hk)] at hlook

/-- A run of elements survives a write beside it. -/
theorem Memory.Holds.putAll_apart {α : Type} {m : Memory α} {a b : Nat} {us vs : List α} (h : Memory.Holds m a vs)
    (hapart : a + vs.length ≤ b ∨ b + us.length ≤ a) : Memory.Holds (Memory.putAll m b us) a vs := by
  intro k v hv
  obtain ⟨hk, _⟩ := List.getElem?_eq_some_iff.mp hv
  rw [Memory.look_putAll_outside _ _ _ _ (by omega)]
  exact h k v hv

/-- Writing over a part of a run of elements replaces that part. -/
theorem Memory.Holds.replace {α : Type} {m : Memory α} {a : Nat} {us vs vs' ws : List α}
    (h : Memory.Holds m a (us ++ vs ++ ws)) (hlen : vs'.length = vs.length) :
    Memory.Holds (Memory.putAll m (a + us.length) vs') a (us ++ vs' ++ ws) := by
  obtain ⟨h, hws⟩ := Memory.holds_append.mp h
  obtain ⟨hus, _⟩ := Memory.holds_append.mp h
  rw [List.length_append, ← hlen, ← List.length_append] at hws
  have hend : a + us.length + vs'.length = a + (us ++ vs').length := by rw [List.length_append, Nat.add_assoc]
  exact Memory.holds_append.mpr ⟨Memory.holds_append.mpr ⟨hus.putAll_apart (.inl (Nat.le_refl _)),
    Memory.holds_putAll m _ vs'⟩, hws.putAll_apart (.inr (Nat.le_of_eq hend))⟩

theorem omemBytes_of_holds {s : State} {a : Nat} {bs : List Byte} (h : Memory.Holds s.omem a bs) :
    s.omemBytes a bs.length = bs := by
  induction bs generalizing a with
  | nil => rfl
  | cons b bs ih => rw [List.length_cons, State.omemBytes, ih h.tail, State.omemAt, h.head, Option.getD_some]

/-! ## The WAV file (44_wav_sink.md R222, R228) -/

/-- What stands between the two size fields. -/
def wavHeaderMiddle (rate b : Nat) : List Byte :=
  tagWave ++ tagFmt ++ le 4 16 ++ le 2 1 ++ le 2 1 ++ le 4 rate ++ le 4 (rate * b) ++ le 2 b ++ le 2 (8 * b) ++ tagData

theorem wavHeaderMiddle_length (rate b : Nat) : (wavHeaderMiddle rate b).length = 32 := by
  simp [wavHeaderMiddle, tagWave, tagFmt, tagData]

theorem wavHeader_eq (riff data rate b : Nat) :
    wavHeader riff data rate b = tagRiff ++ le 4 riff ++ wavHeaderMiddle rate b ++ le 4 data := by
  simp [wavHeader, wavHeaderMiddle, Config.channels]

/-- The payload of the WAV file: the bytes of all samples. -/
def pcmBytes (w : List Int) (prec b : Nat) : List Byte := w.flatMap (fun x => sampleBytes x prec b)

theorem pcmBytes_length (w : List Int) (prec b : Nat) : (pcmBytes w prec b).length = w.length * b := by
  induction w with
  | nil => exact (Nat.zero_mul b).symm
  | cons x w ih =>
    rw [pcmBytes, List.flatMap_cons, List.length_append, sampleBytes_length, ← pcmBytes, ih, List.length_cons,
      Nat.succ_mul, Nat.add_comm]

theorem wavFile_eq (w : List Int) (rate prec b : Nat) :
    wavFile w rate prec b = tagRiff ++ le 4 (36 + w.length * b) ++ wavHeaderMiddle rate b ++ le 4 (w.length * b)
      ++ pcmBytes w prec b := by
  simp [wavFile, wavHeaderMiddle, pcmBytes]

theorem wavFile_length (w : List Int) (rate prec b : Nat) : (wavFile w rate prec b).length = 44 + w.length * b := by
  rw [wavFile_eq, ← wavHeader_eq, List.length_append, wavHeader_length, pcmBytes_length]

/-- A header with empty size fields and the payload, and then the two size fields. -/
def Memory.putWavFile (m : Memory Byte) (w : List Int) (rate prec b : Nat) : Memory Byte :=
  Memory.putAll (Memory.putAll (Memory.putAll m 0 (wavHeader 0 0 rate b ++ pcmBytes w prec b))
    4 (le 4 (36 + w.length * b))) 40 (le 4 (w.length * b))

/-- The size fields filled in afterwards make it the WAV file. -/
theorem Memory.holds_putWavFile (m : Memory Byte) (w : List Int) (rate prec b : Nat) :
    Memory.Holds (Memory.putWavFile m w rate prec b) 0 (wavFile w rate prec b) := by
  have hwritten := Memory.holds_putAll m 0 (wavHeader 0 0 rate b ++ pcmBytes w prec b)
  have hsplit : wavHeader 0 0 rate b ++ pcmBytes w prec b
      = tagRiff ++ le 4 0 ++ (wavHeaderMiddle rate b ++ le 4 0 ++ pcmBytes w prec b) := by
    simp only [wavHeader_eq, List.append_assoc]
  rw (occs := .pos [2]) [hsplit] at hwritten
  have hriff := hwritten.replace (vs' := le 4 (36 + w.length * b)) (by rw [le_length, le_length])
  rw [← List.append_assoc, ← List.append_assoc] at hriff
  have hdata := hriff.replace (vs' := le 4 (w.length * b)) (by rw [le_length, le_length])
  have haddress : 0 + (tagRiff ++ le 4 (36 + w.length * b) ++ wavHeaderMiddle rate b).length = 40 := by
    simp only [List.length_append, le_length, wavHeaderMiddle_length]
    rfl
  rw [haddress] at hdata
  rw [wavFile_eq]
  exact hdata

/-! ## The serializer -/

/-- The block after WAVHDR: the header with empty size fields. -/
def State.headerWritten (s : State) : State :=
  { s with omem := Memory.putAll s.omem 0 (wavHeader 0 0 s.rate s.bps), olen := 44, sp := 0, phase := .wavdata }

theorem execWavhdr_pass {s : State} (hroom : 44 + s.nsamp * s.bps ≤ s.par.ocap)
    (hrate : s.rate < 2 ^ 32 ∧ s.rate * s.bps < 2 ^ 32) : execWavhdr s = .next s.headerWritten := by
  rw [execWavhdr, if_neg (Nat.not_lt.mpr hroom), if_neg (not_not_intro hrate)]
  rfl

/-- The block after one sample has been serialized. -/
def State.sampleWritten (s : State) (x : Int) : State :=
  { s with
    omem := Memory.putAll s.omem s.olen (sampleBytes x s.prec s.bps)
    olen := s.olen + s.bps
    sp := s.sp + 1 }

theorem execWavdata_sample {s : State} (hsp : s.sp < s.nsamp) (hprec : 1 ≤ s.prec ∧ s.prec ≤ 16) (hbps : 1 ≤ s.bps)
    (hroom : s.olen + s.bps ≤ s.par.ocap) : execWavdata s = .next (s.sampleWritten (s.wmemAt s.sp)) := by
  rw [execWavdata, if_neg (Nat.ne_of_lt hsp), if_neg (not_not_intro hsp), if_neg (not_not_intro hprec),
    if_neg (Nat.ne_of_gt hbps), if_neg (Nat.not_lt.mpr hroom)]
  rfl

theorem execBackfill_pass {s : State} {n : Nat} (holen : s.olen = 44 + n) (hcap : 44 + n ≤ s.par.ocap)
    (hocap : s.par.ocap < 2 ^ 32) :
    execBackfill s = .next { s with
      omem := Memory.putAll (Memory.putAll s.omem 4 (le 4 (36 + n))) 40 (le 4 n), phase := .done } := by
  have hriff : s.olen - 8 = 36 + n := by omega
  have hdata : s.olen - 44 = n := by omega
  have hfield : 44 ≤ s.olen ∧ s.olen - 8 < 2 ^ 32 := by omega
  rw [execBackfill, if_neg (not_not_intro hfield), if_neg (by omega), hriff, hdata]

/-- The block after the samples `w` have been serialized, in closed form. -/
def State.serialized (s : State) (w : List Int) : State :=
  { s with
    omem := Memory.putAll s.omem s.olen (pcmBytes w s.prec s.bps)
    olen := s.olen + w.length * s.bps
    sp := s.sp + w.length }

theorem serialized_cons (s : State) (x : Int) (w : List Int) :
    s.serialized (x :: w) = (s.sampleWritten x).serialized w := by
  rw [State.serialized, pcmBytes, List.flatMap_cons, Memory.putAll_append, sampleBytes_length, List.length_cons,
    Nat.succ_mul, Nat.add_comm _ s.bps, Nat.add_comm w.length 1, ← Nat.add_assoc, ← Nat.add_assoc]
  rfl

theorem runFor_wavdata {s : State} {w : List Int} (hp : s.phase = .wavdata) (hagenda : s.agenda = [])
    (hprec : 1 ≤ s.prec ∧ s.prec ≤ 16) (hbps : 1 ≤ s.bps) (hsamples : Memory.Holds s.wmem s.sp w)
    (hsp : s.sp + w.length ≤ s.nsamp) (hroom : s.olen + w.length * s.bps ≤ s.par.ocap) :
    runFor w.length s = .next (s.serialized w) := by
  induction w generalizing s with
  | nil =>
    rw [State.serialized, List.length_nil, Nat.zero_mul]
    rfl
  | cons x w ih =>
    rw [List.length_cons] at hsp hroom
    rw [Nat.succ_mul] at hroom
    have hx : s.wmemAt s.sp = x := by rw [State.wmemAt, hsamples.head, Option.getD_some]
    have hexec : exec .wavdata s = .next (s.sampleWritten x) :=
      hx ▸ execWavdata_sample (by omega) hprec hbps (by omega)
    have hsp' : (s.sampleWritten x).sp + w.length ≤ (s.sampleWritten x).nsamp := by
      show s.sp + 1 + w.length ≤ s.nsamp
      omega
    have hroom' : (s.sampleWritten x).olen + w.length * (s.sampleWritten x).bps ≤ (s.sampleWritten x).par.ocap := by
      show s.olen + s.bps + w.length * s.bps ≤ s.par.ocap
      omega
    rw [serialized_cons, List.length_cons, Nat.add_comm w.length 1]
    exact runFor_trans (runFor_operation hagenda hp rfl hexec)
      (ih (s := s.sampleWritten x) hp hagenda hprec hbps hsamples.tail hsp' hroom')

/-- The block after all samples have been serialized behind the header. -/
def State.payloadWritten (s : State) (w : List Int) : State :=
  { s with
    omem := Memory.putAll s.omem 0 (wavHeader 0 0 s.rate s.bps ++ pcmBytes w s.prec s.bps)
    olen := 44 + w.length * s.bps
    sp := w.length
    phase := .wavdata }

theorem serialized_headerWritten (s : State) (w : List Int) :
    s.headerWritten.serialized w = s.payloadWritten w := by
  simp only [State.serialized, State.headerWritten, State.payloadWritten, State.bps, Memory.putAll_append,
    wavHeader_length, Nat.zero_add]

/-- The block in DONE, with the WAV file of the samples `w` in OMEM. -/
def State.exported (s : State) (w : List Int) : State :=
  { s with
    omem := Memory.putWavFile s.omem w s.rate s.prec s.bps
    olen := 44 + w.length * s.bps
    sp := w.length
    phase := .done }

theorem exported_omem (s : State) (w : List Int) :
    (s.exported w).omem = Memory.putWavFile s.omem w s.rate s.prec s.bps := by
  rw [State.exported]

theorem exported_omemBytes (s : State) (w : List Int) :
    (s.exported w).omemBytes 0 (s.exported w).olen = wavFile w s.rate s.prec s.bps := by
  have hholds := Memory.holds_putWavFile s.omem w s.rate s.prec s.bps
  rw [← exported_omem] at hholds
  have hfile := omemBytes_of_holds hholds
  rwa [wavFile_length] at hfile

/-- From WAVHDR on the run takes a step for the header, one for each sample and one that ends them, and BACKFILL's
(R319). -/
theorem runFor_serializer {s : State} {w : List Int} (hp : s.phase = .wavhdr) (hagenda : s.agenda = [])
    (hstream : InStream s) (hsamples : Memory.Holds s.wmem 0 w) (hnsamp : s.nsamp = w.length)
    (hroom : 44 + w.length * s.bps ≤ s.par.ocap) (hocap : s.par.ocap < 2 ^ 32) :
    runFor (1 + (w.length + 1) + 1) s = .next (s.exported w) := by
  have hprec := hstream.prec_bounds
  have hrate := hstream.rate_fits
  obtain ⟨_, ⟨hbps, _⟩, _⟩ := hstream
  have hwavhdr : exec .wavhdr s = .next s.headerWritten := execWavhdr_pass (by rw [hnsamp]; exact hroom) hrate
  have hsp : s.headerWritten.sp + w.length ≤ s.headerWritten.nsamp := by
    show 0 + w.length ≤ s.nsamp
    omega
  have hloop := runFor_wavdata (s := s.headerWritten) rfl hagenda hprec hbps hsamples hsp hroom
  rw [serialized_headerWritten] at hloop
  have hend : exec .wavdata (s.payloadWritten w) = .next { s.payloadWritten w with phase := .backfill } :=
    if_pos hnsamp.symm
  have hbackfill : exec .backfill { s.payloadWritten w with phase := .backfill } = .next (s.exported w) := by
    rw [exec, execBackfill_pass (s := { s.payloadWritten w with phase := .backfill }) rfl hroom hocap]
    simp only [State.exported, Memory.putWavFile, State.payloadWritten, State.bps]
  exact runFor_trans (runFor_trans (runFor_operation hagenda hp rfl hwavhdr)
    (runFor_trans hloop (runFor_operation hagenda rfl rfl hend))) (runFor_operation hagenda rfl rfl hbackfill)

end Sys2Proof.Machine
end

section
/-! PROOF. The run that no check stops, in closed form (70_reset_and_hazards.md R318, R319): the front end leaves the file's
metadata, DECODE the waveform of its codes, and the serializer the WAV file. Each part answers one explicit state, and the
run is their composition. -/

namespace Sys2Proof.Machine

theorem streamStart_payloadCodes (s : State) (paysize : Nat) : (s.streamStart paysize).payloadCodes = s.fileStream :=
  congrArg (unpackCodes s.cfg.nibord)
    (imemBytes_congr _ s s.payloadStart (s.ilen - s.payloadStart) fun _ _ _ => rfl)

theorem fileStream_length (s : State) : s.fileStream.length = s.fileCodes := by
  rw [State.fileStream, unpackCodes_length, imemBytes_length, State.fileCodes]

/-- The waveform of the file in IMEM, from the accumulator and the cursor of a fresh run (R142). -/
def State.fileWaveform (s : State) : List Int := decodeFrom s.par s.cfg.profile s.filePrec 0 0 s.fileStream

theorem fileWaveform_length (s : State) : s.fileWaveform.length = s.fileCodes := by
  rw [State.fileWaveform, decodeFrom_length, fileStream_length]

/-- The block after a whole run, in closed form. -/
def State.converted (s : State) (paysize : Nat) : State :=
  State.exported { (s.streamStart paysize).decoded s.fileStream with phase := .wavhdr } s.fileWaveform

/-- A started run that no check stops, through its three parts. -/
theorem runFor_conversion {s : State} (hinv : BlockInv s) (hp : s.phase = .cfgchk) (hagenda : s.agenda = [])
    (hverdict : verdict s = none) : ∃ paysize, runFor (runLength s) s = .next (s.converted paysize) := by
  have hphase := hinv.phase
  rw [PhaseInv, hp] at hphase
  obtain ⟨_, hidx, hacc, hcp, _, hnsamp, _⟩ := hphase
  obtain ⟨_, hroom, _⟩ := verdict_none hverdict
  obtain ⟨_, _, hocap⟩ := (params_wf_iff s.par).mp hinv.params
  obtain ⟨paysize, hfront⟩ := runFor_front hp hagenda hverdict
  have hdecode := runFor_decode_all (hinv.runFor hfront) rfl hagenda hcp
  rw [streamStart_payloadCodes, fileStream_length] at hdecode
  obtain ⟨hstream, _⟩ := ((hinv.runFor hfront).runFor hdecode).phase
  have hwmem : ((s.streamStart paysize).decoded s.fileStream).wmem = Memory.putAll s.wmem 0 s.fileWaveform := by
    show Memory.putAll s.wmem s.cp (decodeFrom s.par s.cfg.profile s.filePrec s.acc s.idx s.fileStream) = _
    rw [hcp, hacc, hidx, State.fileWaveform]
  have hsamples : Memory.Holds ((s.streamStart paysize).decoded s.fileStream).wmem 0 s.fileWaveform :=
    hwmem ▸ Memory.holds_putAll s.wmem 0 s.fileWaveform
  have hcount : s.nsamp + s.fileStream.length = s.fileWaveform.length := by
    rw [hnsamp, Nat.zero_add, fileStream_length, fileWaveform_length]
  have hserializer := runFor_serializer
    (s := { (s.streamStart paysize).decoded s.fileStream with phase := .wavhdr }) rfl hagenda hstream hsamples hcount
    (by rw [fileWaveform_length]; exact hroom) hocap
  rw [fileWaveform_length] at hserializer
  have hsteps : runLength s = s.frontSteps + ((s.fileCodes + 1) + (1 + (s.fileCodes + 1) + 1)) := by
    rw [runLength_of_verdict_none hverdict]
    omega
  rw [hsteps]
  exact ⟨paysize, runFor_trans hfront (runFor_trans hdecode hserializer)⟩

/-- The block after the host's START. -/
def State.started (s : State) : State := clearRun .cfgchk s.popTurn

/-- START leaves the file's codes as they are. -/
theorem started_fileStream (s : State) : s.started.fileStream = s.fileStream :=
  congrArg (unpackCodes s.cfg.nibord)
    (imemBytes_congr _ s s.payloadStart (s.ilen - s.payloadStart) fun _ _ _ => rfl)

/-- Settles O36: START clears the registers, and the closed form of the run from there has the waveform in WMEM and the
file in OMEM. -/
theorem conversionOutput : Obligations.ConversionOutput := by
  intro s hinv hbusy hagenda hverdict
  have hagenda' : s.started.agenda = [] := by
    rw [State.started, clearRun_agenda, popTurn_agenda, hagenda, List.tail_cons]
  obtain ⟨paysize, hrun⟩ := runFor_conversion (hinv.popTurn.clearRun (.inr rfl)) rfl hagenda' hverdict
  have hcodes : 0 + s.started.fileStream.length = s.fileCodes := (Nat.zero_add _).trans (fileStream_length s.started)
  have hlen : s.started.fileWaveform.length = s.fileCodes := fileWaveform_length s.started
  rw [← started_fileStream]
  refine ⟨s.started.converted paysize, (runFor_one_add _ (step_start hbusy hagenda)).trans hrun,
    rfl, rfl, rfl, rfl, hcodes, hcodes, hlen, ?waveform, rfl, ?file, ?olen⟩
  case waveform =>
    have hnsamp : (s.started.converted paysize).nsamp = s.fileCodes := hcodes
    have hsamples := wmemSamples_of_holds (s := s.started.converted paysize)
      (Memory.holds_putAll s.wmem 0 s.started.fileWaveform)
    rw [hlen] at hsamples
    rw [hnsamp]
    exact hsamples
  case file => exact exported_omemBytes _ _
  case olen => exact congrArg (44 + · * s.bps) hlen

end Sys2Proof.Machine
end

section
/-! PROOF. The front end (42_cmp_source.md R180 to R185): which nibble plays when, the code that is fetched, what each check
answers, and what the four phases leave unchanged. -/

namespace Sys2Proof.Machine

/-! ## Nibbles and the fetched code (R184, R185) -/

theorem lowNibble_toNat (b : Byte) : (lowNibble b).toNat = b.toNat % 16 := by
  rw [lowNibble, BitVec.extractLsb'_toNat, Nat.shiftRight_zero]

theorem highNibble_toNat (b : Byte) : (highNibble b).toNat = b.toNat / 16 := by
  have hb := b.isLt
  rw [highNibble, BitVec.extractLsb'_toNat, Nat.shiftRight_eq_div_pow]
  omega

/-- Settles O23: NIB takes the low or the high nibble, which are the byte's remainder and quotient by 16. -/
theorem nibbleSelection : Obligations.NibbleSelection :=
  ⟨fun b => ⟨lowNibble_toNat b, highNibble_toNat b, highNibble_toNat b, lowNibble_toNat b⟩, rfl⟩

/-- Settles O3: code `j` of the unpacked payload is in byte `j div 2`, which lies in the file while codes are left. -/
theorem fetchFollowsPlaybackOrder : Obligations.FetchFollowsPlaybackOrder :=
  fun _ hmore => payloadCodes_getElem?_cp hmore

/-- Settles O6: the step is DECODE, which runs the code it fetches; taking the turn off the agenda changes no operand. -/
theorem decodeStepRunsFetchedCode : Obligations.DecodeStepRunsFetchedCode := by
  intro s hblock hphase hmore hread i hi
  obtain rfl : decodeCode s.currentCode = i := Except.ok.inj hi
  have hop : s.phase.operation = some .decode := by rw [hphase]; rfl
  exact (step_of_operation hblock hop).trans (exec_decode_fetched (s := s.popTurn) hmore hread)

/-- While a code is left its byte is inside the file. -/
theorem code_readable {s : State} (hmore : (s.cp : Int) < s.codeCount) (hcap : s.codeByteIndex < s.par.icap) :
    s.imemReadable s.codeByteIndex 1 = true := by
  rw [State.codeCount] at hmore
  refine (imemReadable_iff s _ 1).mpr ⟨?_, hcap⟩
  rw [State.codeByteIndex]
  omega

/-- Settles O22: past the last code PHASE alone changes; before it DECODE is the fetched code, whose result is `afterCode`. -/
theorem decodeResult : Obligations.DecodeResult := by
  intro s
  refine ⟨fun hend => if_pos hend, fun hmore hcap hdef => ?code⟩
  case code =>
    have hfetch : exec .decode s = exec (decodeCode s.currentCode) s :=
      exec_decode_fetched (Int.ne_of_lt hmore) (code_readable hmore hcap)
    have hcode := (exec_decodeCode s.currentCode s).trans (emitSample_of_codeDefined hdef _ _)
    exact ⟨_, hfetch.trans hcode, hcode, rfl, rfl⟩

/-! ## CFGCHK (R180) -/

/-- Settles O19: the two checks in their order, then the variant. -/
theorem cfgchkResult : Obligations.CfgchkResult := by
  intro s
  refine ⟨fun hbps => if_pos hbps, fun hlo hhi hlen => ?long,
    fun hlo hhi hlen hvar => execCfgchk_header ⟨hlo, hhi, hlen⟩ hvar,
    fun hlo hhi hlen hvar => execCfgchk_headerless ⟨hlo, hhi, hlen⟩ hvar⟩
  case long =>
    have hbps : ¬ (s.bps = 0 ∨ 4 < s.bps) := by omega
    exact (if_neg hbps).trans (if_pos hlen)

/-! ## SIGCHK (R181) -/

theorem leVal_two (a b : Byte) : leVal [a, b] = a.toNat + 256 * b.toNat := rfl

theorem leVal_four (a b c d : Byte) :
    leVal [a, b, c, d] = a.toNat + 256 * b.toNat + 65536 * c.toNat + 16777216 * d.toNat := by
  simp only [leVal]
  omega

theorem execSigchk_mismatch {s : State} (hlen : 4 ≤ s.ilen) (hcap : 4 ≤ s.par.icap)
    (hsig : s.imemBytes 0 4 ≠ s.par.sigExpected.toList) :
    execSigchk s = .next (raiseError .fmtSignature (leVal (s.imemBytes 0 4)) s) := by
  have hread : s.imemReadable 0 4 = true := (imemReadable_iff s 0 4).mpr ⟨hlen, hcap⟩
  rw [execSigchk, if_neg (Nat.not_lt.mpr hlen), if_neg (not_not_intro hread)]
  exact if_pos hsig

/-- Settles O20: too short a file, a signature that differs, or the expected one. -/
theorem sigchkResult : Obligations.SigchkResult := by
  intro s
  refine ⟨fun hlen => if_pos hlen, fun hlen hcap hsig => ?mismatch, fun hlen hcap hsig => execSigchk_pass hlen hcap hsig⟩
  case mismatch =>
    rw [← leVal_four]
    exact execSigchk_mismatch hlen hcap hsig

/-! ## HDRPARSE (R182) -/

/-- The checks of the header's fields in their order (60_exceptions.md R285), and their latching. -/
def checkFields (size rate prec : Nat) (s : State) : Out :=
  if prec ∉ Config.supportedPrec then .next (raiseError .fmtPrecision prec s)
  else if s.par.checkPaysize = true ∧ s.ilen - 14 < size then .next (raiseError .fmtTruncPayload (s.ilen - 14) s)
  else if 2 ^ 32 ≤ rate * s.bps then .next (raiseError .fmtRange rate s)
  else .next { s with paysize := size, rate := rate, prec := prec, poff := 14, phase := .decode }

/-- With a whole header in IMEM, HDRPARSE is the checks of its three fields. -/
theorem execHdrparse_eq_checkFields {s : State} (hlen : 14 ≤ s.ilen) (hcap : 14 ≤ s.par.icap) :
    execHdrparse s
      = checkFields (leVal (s.imemBytes 4 4)) (leVal (s.imemBytes 8 4)) (leVal (s.imemBytes 12 2)) s := by
  have hread : s.imemReadable 4 10 = true := (imemReadable_iff s 4 10).mpr ⟨hlen, hcap⟩
  rw [execHdrparse, if_neg (Nat.not_lt.mpr hlen), if_neg (not_not_intro hread), checkFields]

theorem not_supportedPrec_iff (p : Nat) : p ∉ Config.supportedPrec ↔ p ≠ 16 := by
  rw [Config.supportedPrec, List.mem_singleton]

/-- Settles O21: too short a file, or the checks of the fields one after another. -/
theorem hdrparseResult : Obligations.HdrparseResult := by
  intro s size rate prec hsize hrate hprec
  rw [← leVal_four] at hsize hrate
  rw [← leVal_two] at hprec
  have hfields (hlen : 14 ≤ s.ilen) (hcap : 14 ≤ s.par.icap) : exec .hdrparse s = checkFields size rate prec s := by
    rw [hsize, hrate, hprec]
    exact execHdrparse_eq_checkFields hlen hcap
  have hsupported (h16 : prec = 16) : ¬ prec ∉ Config.supportedPrec := by
    rw [not_supportedPrec_iff]
    exact not_not_intro h16
  refine ⟨fun hlen => if_pos hlen, fun hlen hcap h16 => ?precision, fun hlen hcap h16 hcheck hover => ?payload,
    fun hlen hcap h16 hfit hover => ?range, fun hlen hcap h16 hfit hbytes => ?latch⟩ <;>
    rw [hfields hlen hcap, checkFields]
  case precision => exact if_pos ((not_supportedPrec_iff prec).mpr h16)
  case payload => rw [if_neg (hsupported h16), if_pos ⟨hcheck, hover⟩]; rfl
  case range => rw [if_neg (hsupported h16), if_neg hfit, if_pos hover]; rfl
  case latch => rw [if_neg (hsupported h16), if_neg hfit, if_neg (Nat.not_le.mpr hbytes)]

/-! ## What the front end leaves unchanged -/

/-- CFGCHK, SIGCHK and HDRPARSE raise an error, or go on with the stream's metadata set; SIGCHK keeps the metadata. -/
theorem exec_check_cases {i : Instr} {s t : State} (hi : i = .cfgchk ∨ i = .sigchk ∨ i = .hdrparse)
    (hexec : exec i s = .next t) :
    (∃ e info, t = raiseError e info s)
    ∨ ∃ rate prec paysize poff phase,
        t = { s with rate := rate, prec := prec, paysize := paysize, poff := poff, phase := phase }
          ∧ phase ≠ .error ∧ (i = .sigchk → MetadataAsBefore s t) := by
  rcases hi with rfl | rfl | rfl
  · rcases execCfgchk_cases hexec with ⟨_, rfl⟩ | ⟨_, _, _, rfl⟩ | ⟨_, _, rfl⟩ | ⟨_, _, rfl⟩
    · exact .inl ⟨_, _, rfl⟩
    · exact .inl ⟨_, _, rfl⟩
    · exact .inr ⟨_, _, _, _, _, rfl, by decide, nofun⟩
    · exact .inr ⟨_, _, _, _, _, rfl, by decide, nofun⟩
  · rcases execSigchk_cases hexec with ⟨_, rfl⟩ | ⟨_, _, rfl⟩ | ⟨_, _, rfl⟩
    · exact .inl ⟨_, _, rfl⟩
    · exact .inl ⟨_, _, rfl⟩
    · exact .inr ⟨_, _, _, _, _, rfl, by decide, fun _ => ⟨rfl, rfl, rfl, rfl⟩⟩
  · rcases execHdrparse_cases hexec with ⟨_, rfl⟩ | ⟨_, _, rfl⟩ | ⟨_, _, _, _, rfl⟩ | ⟨_, _, _, _, rfl⟩ | ⟨_, _, _, _, rfl⟩
    · exact .inl ⟨_, _, rfl⟩
    · exact .inl ⟨_, _, rfl⟩
    · exact .inl ⟨_, _, rfl⟩
    · exact .inl ⟨_, _, rfl⟩
    · exact .inr ⟨_, _, _, _, _, rfl, by decide, nofun⟩

/-- Settles O25: an error entry writes four registers, a passed check PHASE and the metadata, and DECODE PHASE alone or
what a code writes. -/
theorem frontFrame : Obligations.FrontFrame := by
  refine ⟨fun i s t hi hexec => ?checks, fun s t hexec => ?decode⟩
  case checks =>
    rcases exec_check_cases hi hexec with ⟨e, info, rfl⟩ | ⟨rate, prec, paysize, poff, phase, rfl, hphase, hsigchk⟩
    · have hmeta : MetadataAsBefore s (raiseError e info s) := ⟨rfl, rfl, rfl, rfl⟩
      exact ⟨⟨fun _ => rfl, fun _ => rfl, fun _ => rfl⟩, ⟨rfl, rfl, rfl, rfl, rfl, rfl, rfl⟩, ⟨rfl, rfl, rfl, rfl⟩, rfl,
        fun _ => hmeta, fun _ => hmeta, fun hne => absurd rfl hne⟩
    · exact ⟨⟨fun _ => rfl, fun _ => rfl, fun _ => rfl⟩, ⟨rfl, rfl, rfl, rfl, rfl, rfl, rfl⟩, ⟨rfl, rfl, rfl, rfl⟩, rfl,
        hsigchk, fun herror => absurd herror hphase, fun _ => ⟨rfl, rfl, rfl⟩⟩
  case decode =>
    rcases execDecode_cases hexec with ⟨_, rfl⟩ | ⟨_, _, _, d, a, rfl⟩
    · exact ⟨⟨rfl, rfl, rfl, rfl, rfl, rfl, rfl⟩, ⟨rfl, rfl, rfl, rfl⟩, rfl, rfl, rfl, rfl, fun _ => rfl, fun _ => rfl,
        fun _ _ => rfl, fun _ => ⟨⟨rfl, rfl, rfl, rfl⟩, fun _ => rfl, fun _ => rfl, fun _ => rfl⟩⟩
    · exact ⟨⟨rfl, rfl, rfl, rfl, rfl, rfl, rfl⟩, ⟨rfl, rfl, rfl, rfl⟩, rfl, rfl, rfl, rfl, fun _ => rfl, fun _ => rfl,
        fun _ => afterCode_wmemAt_other d _ s, fun hne => absurd rfl hne⟩

end Sys2Proof.Machine
end

section
/-! PROOF. The normalizer: its formula, its range and symmetry, its order, and that its clamp is idle inside a run
(43_pcm_normalizer.md R200 to R205). -/

namespace Sys2Proof.Machine

/-! ## The formula (43_pcm_normalizer.md R200) -/

theorem tdiv_eq_intTdiv (n : Int) (d : Nat) : tdiv n d = Int.tdiv n d := by
  rw [tdiv]
  split
  · next hn => exact (Int.tdiv_eq_ediv_of_nonneg hn).symm
  · next hn => rw [← Int.tdiv_eq_ediv_of_nonneg (by omega), Int.neg_tdiv, Int.neg_neg]

theorem two_pow_sub_one_pos {n : Nat} (hn : 1 ≤ n) : (0 : Int) < 2 ^ n - 1 := by
  have hone : 1 < 2 ^ n := Nat.one_lt_two_pow (Nat.ne_of_gt hn)
  have hcast : ((2 ^ n : Nat) : Int) = 2 ^ n := natCast_two_pow n
  omega

/-- `two_mul_two_pow_pred` among the integers, where the normalizer computes. -/
theorem two_mul_two_pow_pred_int {n : Nat} (hn : 1 ≤ n) : (2 : Int) * 2 ^ (n - 1) = 2 ^ n := by
  rw [← natCast_two_pow, ← natCast_two_pow, ← two_mul_two_pow_pred hn]
  exact (Int.natCast_mul 2 _).symm

/-- `NORM` through the library's truncating division, whose divisor is an integer. -/
theorem pcmNorm_eq_intTdiv (x : Int) (i b : Nat) :
    pcmNorm x i b =
      Int.tdiv ((2 ^ (8 * b) - 1) * (2 * clampInt (x + 2 ^ (i - 1)) 0 (2 ^ i - 1) - (2 ^ i - 1))) (2 * (2 ^ i - 1)) := by
  have hdivisor : ((2 * (2 ^ i - 1) : Nat) : Int) = 2 * (2 ^ i - 1) := by
    have hpos : 0 < 2 ^ i := Nat.two_pow_pos i
    have hcast : ((2 ^ i : Nat) : Int) = 2 ^ i := natCast_two_pow i
    omega
  rw [pcmNorm, tdiv_eq_intTdiv, hdivisor]

/-- Settles O26: the model's truncating division is the library's, and its clamp the two-sided bound. -/
theorem normFormula : Obligations.NormFormula := by
  intro x i b hi _
  rw [pcmNorm_eq_intTdiv, clampInt_eq_max_min (Int.le_of_lt (two_pow_sub_one_pos hi))]

/-! ## Symmetry, extremes and order (R203, R204) -/

theorem clampInt_sub_left {x hi : Int} (hb : 0 ≤ hi) : clampInt (hi - x) 0 hi = hi - clampInt x 0 hi := by
  rw [clampInt_eq_max_min hb, clampInt_eq_max_min hb]
  omega

/-- `s -> -1-s` maps the clamped sample `uc` to `U - uc`, which negates the dividend (43_pcm_normalizer.md R203). -/
theorem pcmNorm_neg_one_sub (x : Int) {i : Nat} (b : Nat) (hi : 1 ≤ i) : pcmNorm (-1 - x) i b = -pcmNorm x i b := by
  have hhalf : (2 : Int) * 2 ^ (i - 1) = 2 ^ i := two_mul_two_pow_pred_int hi
  have hunsigned : -1 - x + 2 ^ (i - 1) = 2 ^ i - 1 - (x + 2 ^ (i - 1)) := by omega
  have hclamp := clampInt_sub_left (x := x + 2 ^ (i - 1)) (Int.le_of_lt (two_pow_sub_one_pos hi))
  rw [pcmNorm_eq_intTdiv, pcmNorm_eq_intTdiv, hunsigned, hclamp, ← Int.neg_tdiv, ← Int.mul_neg]
  congr 2
  omega

/-- From the largest sample of the precision on, `NORM` is half of `W`, truncated. -/
theorem pcmNorm_of_ge {x : Int} {i b : Nat} (hi : 1 ≤ i) (hb : 1 ≤ b) (hx : 2 ^ (i - 1) - 1 ≤ x) :
    pcmNorm x i b = 2 ^ (8 * b - 1) - 1 := by
  have hU := two_pow_sub_one_pos hi
  have hhalf : (2 : Int) * 2 ^ (i - 1) = 2 ^ i := two_mul_two_pow_pred_int hi
  have hwidth : (2 : Int) * 2 ^ (8 * b - 1) = 2 ^ (8 * b) := two_mul_two_pow_pred_int (by omega)
  have hW := two_pow_sub_one_pos (by omega : 1 ≤ 8 * b)
  have hunsigned : 2 * (2 ^ i - 1) - (2 ^ i - 1) = (2 : Int) ^ i - 1 := by omega
  calc pcmNorm x i b
      = Int.tdiv ((2 ^ (8 * b) - 1) * (2 ^ i - 1)) (2 * (2 ^ i - 1)) := by
        rw [pcmNorm_eq_intTdiv, clampInt_high (by omega) (Int.le_of_lt hU), hunsigned]
    _ = Int.tdiv (2 ^ (8 * b) - 1) 2 := Int.mul_tdiv_mul_of_pos_left _ _ hU
    _ = 2 ^ (8 * b - 1) - 1 := by
        rw [Int.tdiv_eq_ediv_of_nonneg (Int.le_of_lt hW)]
        omega

/-- The least sample of the precision mirrors the largest one. -/
theorem pcmNorm_of_le {x : Int} {i b : Nat} (hi : 1 ≤ i) (hb : 1 ≤ b) (hx : x ≤ -(2 ^ (i - 1))) :
    pcmNorm x i b = -(2 ^ (8 * b - 1) - 1) := by
  rw [← pcmNorm_of_ge hi hb (by omega : 2 ^ (i - 1) - 1 ≤ -1 - x), pcmNorm_neg_one_sub x b hi, Int.neg_neg]

/-- The clamp, the dividend and the truncated quotient each keep the order (43_pcm_normalizer.md R204). -/
theorem pcmNorm_mono {x y : Int} {i b : Nat} (hi : 1 ≤ i) (hb : 1 ≤ b) (h : y ≤ x) : pcmNorm y i b ≤ pcmNorm x i b := by
  have hU := two_pow_sub_one_pos hi
  have hW := two_pow_sub_one_pos (by omega : 1 ≤ 8 * b)
  have hclamp : clampInt (y + 2 ^ (i - 1)) 0 (2 ^ i - 1) ≤ clampInt (x + 2 ^ (i - 1)) 0 (2 ^ i - 1) :=
    clampInt_mono (by omega) (Int.le_of_lt hU)
  rw [pcmNorm_eq_intTdiv, pcmNorm_eq_intTdiv]
  exact Int.tdiv_le_tdiv (by omega) (Int.mul_le_mul_of_nonneg_left (by omega) (Int.le_of_lt hW))

/-- Settles O27: the bounds are those of the bytes' signed range, the extremes half of `W`, and the three values of silence
are computed. -/
theorem normRangeSymmetry : Obligations.NormRangeSymmetry := by
  refine ⟨fun x i b hi hb => ?_, by decide, by decide, by decide⟩
  obtain ⟨hlo, hhi⟩ := pcmNorm_bounds x hi hb
  exact ⟨by omega, by omega, pcmNorm_of_le hi hb, pcmNorm_of_ge hi hb, pcmNorm_neg_one_sub x b hi⟩

/-- Settles O28: at 12 bits and 1 byte the values between the two ends, both 0, are 0 by the order. -/
theorem normMonotone : Obligations.NormMonotone := by
  refine ⟨fun x y i b hi hb h => pcmNorm_mono hi hb (Int.le_of_lt h), by decide, by decide, fun x hlo hhi => ?_⟩
  have hleast : pcmNorm (-16) 12 1 = 0 := by decide
  have hgreatest : pcmNorm 15 12 1 = 0 := by decide
  have habove : pcmNorm (-16) 12 1 ≤ pcmNorm x 12 1 := pcmNorm_mono (by decide) (by decide) hlo
  have hbelow : pcmNorm x 12 1 ≤ pcmNorm 15 12 1 := pcmNorm_mono (by decide) (by decide) hhi
  omega

/-! ## The clamp inside a run (R205) -/

theorem WaveformSound.wmemAt_range {s : State} (h : WaveformSound s) {i : Nat} (hi : i < s.nsamp) :
    sampleMin s.prec ≤ s.wmemAt i ∧ s.wmemAt i ≤ sampleMax s.prec := by
  obtain ⟨_, _, _, _, hsamples⟩ := h
  obtain ⟨v, hlook, hrange⟩ := hsamples i hi
  rwa [State.wmemAt, hlook, Option.getD_some]

/-- A sample inside the range of its precision is inside `0 .. U` when read as unsigned (41_adpcm_decoder.md R140,
43_pcm_normalizer.md R205). -/
theorem unsigned_sample_bounds {v : Int} {p : Nat} (hp : 1 ≤ p) (hlo : sampleMin p ≤ v) (hhi : v ≤ sampleMax p) :
    0 ≤ v + 2 ^ (p - 1) ∧ v + 2 ^ (p - 1) ≤ 2 ^ p - 1 := by
  have hhalf : (2 : Int) * 2 ^ (p - 1) = 2 ^ p := two_mul_two_pow_pred_int hp
  rw [sampleMin] at hlo
  rw [sampleMax] at hhi
  omega

/-- Settles O29: in WAVDATA the invariant has every sample below NSAMP inside the range of PREC. -/
theorem normClampIdleInRuns : Obligations.NormClampIdleInRuns := by
  intro s hinv hp hsp
  have hphase := hinv.phase
  rw [PhaseInv, hp] at hphase
  obtain ⟨hstream, _⟩ := hphase
  have ⟨hprec, _⟩ := hstream.prec_bounds
  obtain ⟨_, _, _, hwave, _⟩ := hstream
  obtain ⟨hlo, hhi⟩ := hwave.wmemAt_range hsp
  exact unsigned_sample_bounds hprec hlo hhi

end Sys2Proof.Machine
end

section
/-! PROOF. The serializer, operation by operation: what WAVHDR, WAVDATA and BACKFILL answer, what they leave unchanged,
and the finished export (44_wav_sink.md R222 to R226). -/

namespace Sys2Proof.Machine

/-! ## The results -/

/-- The header as R222 lists it: its fixed fields as bytes, the size fields zero, one channel. -/
theorem wavHeader_bytes (rate b : Nat) :
    wavHeader 0 0 rate b =
      [0x52#8, 0x49#8, 0x46#8, 0x46#8, 0x00#8, 0x00#8, 0x00#8, 0x00#8, 0x57#8, 0x41#8, 0x56#8, 0x45#8,
        0x66#8, 0x6D#8, 0x74#8, 0x20#8, 0x10#8, 0x00#8, 0x00#8, 0x00#8, 0x01#8, 0x00#8, 0x01#8, 0x00#8]
        ++ le 4 rate ++ le 4 (rate * b) ++ le 2 b ++ le 2 (8 * b)
        ++ [0x64#8, 0x61#8, 0x74#8, 0x61#8, 0x00#8, 0x00#8, 0x00#8, 0x00#8] := by
  simp only [wavHeader, Config.channels, Nat.one_mul, List.append_assoc]
  rfl

/-- Settles O30: the capacity check of the whole file, then the header. -/
theorem wavhdrResult : Obligations.WavhdrResult := by
  intro s
  refine ⟨fun hfull => if_pos hfull, fun hroom hrate hbytes => ?header⟩
  case header =>
    rw [← wavHeader_bytes]
    exact execWavhdr_pass hroom ⟨hrate, hbytes⟩

/-- Settles O31: past the last sample PHASE alone changes; before it the sample's bytes are appended. -/
theorem wavdataResult : Obligations.WavdataResult :=
  fun _ => ⟨fun hend => if_pos hend,
    fun hsp hlo hhi hbps hroom => execWavdata_sample hsp ⟨hlo, hhi⟩ hbps hroom⟩

/-- Settles O32: with OLEN a 32-bit field and room for the header, BACKFILL writes both size fields. -/
theorem backfillResult : Obligations.BackfillResult :=
  fun _ holen hfield hcap =>
    (if_neg (not_not_intro ⟨holen, hfield⟩)).trans (if_neg (Nat.not_lt.mpr hcap))

/-! ## What the serializer leaves unchanged -/

/-- An operation of the serializer raises IO_FULL, which WAVHDR alone does, or writes OMEM, OLEN, SP and PHASE only. -/
theorem exec_sink_cases {i : Instr} {s t : State} (hi : i = .wavhdr ∨ i = .wavdata ∨ i = .backfill)
    (hexec : exec i s = .next t) :
    (i = .wavhdr ∧ t = raiseError .ioFull s.nsamp s)
    ∨ ∃ omem olen sp phase, t = { s with omem := omem, olen := olen, sp := sp, phase := phase } := by
  rcases hi with rfl | rfl | rfl
  · rcases execWavhdr_cases hexec with ⟨_, rfl⟩ | ⟨_, _, _, rfl⟩
    · exact .inl ⟨rfl, rfl⟩
    · exact .inr ⟨_, _, _, _, rfl⟩
  · rcases execWavdata_cases hexec with ⟨_, rfl⟩ | ⟨_, _, _, _, _, rfl⟩
    · exact .inr ⟨_, _, _, _, rfl⟩
    · exact .inr ⟨_, _, _, _, rfl⟩
  · obtain ⟨_, _, _, rfl⟩ := execBackfill_cases hexec
    exact .inr ⟨_, _, _, _, rfl⟩

/-- A run of bytes stored in OMEM leaves every byte outside it as it reads, written or not. -/
theorem omemAt_putAll_outside (s : State) {a k : Nat} {bs : List Byte} (hk : k < a ∨ a + bs.length ≤ k) (olen sp : Nat)
    (phase : Phase) :
    State.omemAt { s with omem := Memory.putAll s.omem a bs, olen := olen, sp := sp, phase := phase } k = s.omemAt k :=
  congrArg (Option.getD · _) (Memory.look_putAll_outside s.omem a bs k hk)

/-- The two size fields are the only bytes BACKFILL stores. -/
theorem execBackfill_omemAt {s t : State} (hexec : execBackfill s = .next t) {k : Nat}
    (hk : k < 4 ∨ (8 ≤ k ∧ k < 40) ∨ 44 ≤ k) : t.omemAt k = s.omemAt k := by
  obtain ⟨_, _, _, rfl⟩ := execBackfill_cases hexec
  have hriff : k < 4 ∨ 4 + (le 4 (s.olen - 8)).length ≤ k := by rw [le_length]; omega
  have hdata : k < 40 ∨ 40 + (le 4 (s.olen - 44)).length ≤ k := by rw [le_length]; omega
  exact (omemAt_putAll_outside { s with omem := Memory.putAll s.omem 4 (le 4 (s.olen - 8)) } hdata _ _ _).trans
    (omemAt_putAll_outside s hriff _ _ _)

/-- Settles O33: no operation writes a register but those of `exec_sink_cases`, and each stores one or two runs of bytes
or none. -/
theorem sinkFrame : Obligations.SinkFrame := by
  refine ⟨fun i s t hi hexec => ?registers, fun s t hexec => ?wavhdr, fun s t hexec => ?wavdata,
    fun s t hexec => ?backfill⟩
  case registers =>
    rcases exec_sink_cases hi hexec with ⟨hwavhdr, rfl⟩ | ⟨omem, olen, sp, phase, rfl⟩
    · exact ⟨⟨rfl, rfl, rfl, rfl, rfl, rfl, rfl⟩, ⟨rfl, rfl, rfl, rfl⟩, ⟨rfl, rfl, rfl, rfl⟩,
        fun hne => absurd hwavhdr hne, fun _ => rfl, fun _ => rfl⟩
    · exact ⟨⟨rfl, rfl, rfl, rfl, rfl, rfl, rfl⟩, ⟨rfl, rfl, rfl, rfl⟩, ⟨rfl, rfl, rfl, rfl⟩,
        fun _ => ⟨rfl, rfl⟩, fun _ => rfl, fun _ => rfl⟩
  case wavhdr =>
    rcases execWavhdr_cases hexec with ⟨_, rfl⟩ | ⟨_, _, _, rfl⟩
    · exact ⟨fun _ _ => rfl, fun _ => ⟨fun _ => rfl, rfl⟩, fun hne => absurd rfl hne⟩
    · refine ⟨fun a ha => omemAt_putAll_outside s (.inr ?_) _ _ _, nofun, fun _ => ⟨rfl, rfl⟩⟩
      rwa [wavHeader_length]
  case wavdata =>
    rcases execWavdata_cases hexec with ⟨hend, rfl⟩ | ⟨hsp, _, _, _, _, rfl⟩
    · exact ⟨fun _ _ => rfl, fun _ => ⟨fun _ => rfl, rfl, rfl⟩, fun hne => absurd hend hne⟩
    · refine ⟨fun a ha => omemAt_putAll_outside s ?_ _ _ _, fun hend => absurd hend (Nat.ne_of_lt hsp), fun _ => rfl⟩
      rwa [sampleBytes_length]
  case backfill =>
    have hbytes (a : Nat) := execBackfill_omemAt hexec (k := a)
    obtain ⟨_, _, _, rfl⟩ := execBackfill_cases hexec
    exact ⟨rfl, rfl, hbytes⟩

/-! ## The finished export (R226) -/

/-- Settles O35: in a run BACKFILL completes with the fields of `Exported`; OLEN is what the invariant has for the phase. -/
theorem finishedExportSizes : Obligations.FinishedExportSizes := by
  intro s hinv hp
  have hphase := hinv.phase
  rw [PhaseInv, hp] at hphase
  obtain ⟨⟨_, ⟨hlo, hhi, _⟩, _⟩, _, hsp, holen, hcap, _⟩ := hphase
  obtain ⟨t, hexec⟩ := operation_completes (i := .backfill) hinv (by rw [hp]; rfl)
  obtain ⟨_, _, _, hriff, hdata⟩ := execBackfill_exported hexec ⟨hlo, hhi⟩ hsp holen hcap
  obtain ⟨_, _, _, rfl⟩ := execBackfill_cases hexec
  have hriffCount : s.olen - 8 = 36 + s.nsamp * s.bps := by omega
  have hdataCount : s.olen - 44 = s.nsamp * s.bps := by omega
  exact ⟨_, hexec, rfl, holen, hriff, hriff.trans hriffCount, hdata, hdata.trans hdataCount⟩

end Sys2Proof.Machine
end

section
/-! PROOF. The host's two commands (45_host_commands.md R250, R251): what START and CLEAR answer in each phase, and what they
leave unchanged. -/

namespace Sys2Proof.Machine

/-! ## What a command answers -/

theorem exec_start_of_not_busy {s : State} (h : s.busy = false) : exec .start s = .next (clearRun .cfgchk s) :=
  if_neg (Bool.eq_false_iff.mp h)

theorem exec_start_of_busy {s : State} (h : s.busy = true) : exec .start s = .next s := if_pos h

theorem exec_clear_of_not_busy {s : State} (h : s.busy = false) : exec .clear s = .next (clearRun .idle s) :=
  if_neg (Bool.eq_false_iff.mp h)

theorem exec_clear_of_busy {s : State} (h : s.busy = true) : exec .clear s = .next s := if_pos h

/-- Settles O39: IDLE, DONE and ERROR are the phases of a block that is not busy, where START is `clearRun` to CFGCHK. -/
theorem startResult : Obligations.StartResult := fun s =>
  ⟨fun hfree => exec_start_of_not_busy ((not_busy_iff s).mpr hfree),
    fun hidle hdone herror => exec_start_of_busy ((busy_iff s).mpr ⟨hidle, hdone, herror⟩), rfl⟩

/-- Settles O40: IDLE, DONE and ERROR are the phases of a block that is not busy, where CLEAR is `clearRun` to IDLE. -/
theorem clearResult : Obligations.ClearResult := fun s =>
  ⟨fun hfree => exec_clear_of_not_busy ((not_busy_iff s).mpr hfree),
    fun hidle hdone herror => exec_clear_of_busy ((busy_iff s).mpr ⟨hidle, hdone, herror⟩), rfl⟩

/-! ## What the commands leave unchanged -/

/-- A command is ignored, or all it does is to clear the registers the block writes and to set PHASE. -/
theorem exec_command_cases {i : Instr} {s t : State} (hi : i = .start ∨ i = .clear) (hexec : exec i s = .next t) :
    t = s ∨ ∃ p, t = clearRun p s := by
  rcases hi with rfl | rfl
  · exact (execStart_cases hexec).imp And.right fun h => ⟨_, h.2⟩
  · exact (execClear_cases hexec).imp And.right fun h => ⟨_, h.2⟩

/-- Settles O41: the host's side is kept by every instruction, and `clearRun` writes no memory. -/
theorem commandsFrame : Obligations.CommandsFrame := by
  intro i s t hi hexec
  obtain ⟨hhost, _⟩ := runConfigurationConstant i s t hexec
  refine ⟨?memories, hhost⟩
  rcases exec_command_cases hi hexec with rfl | ⟨p, rfl⟩
  · exact ⟨fun _ => rfl, fun _ => rfl, fun _ => rfl⟩
  · exact ⟨clearRun_imemAt p s, clearRun_wmemAt p s, clearRun_omemAt p s⟩

end Sys2Proof.Machine
end

section
/-! PROOF. Every run ends as the checks say, after the steps the spec counts (60_exceptions.md R285,
70_reset_and_hazards.md R319). Backwards through the phases: where a run stops it is known how many steps are left and
what the block reports, and the operation of PHASE carries this to the step before. -/

namespace Sys2Proof.Machine

/-! ## How a run ends -/

/-- The block has stopped with the outcome that a verdict announces (R272, R273). -/
def Reports (v : Option (Err × Nat)) (t : State) : Prop :=
  (∀ e info, v = some (e, info) → t.phase = .error ∧ t.err = e ∧ t.errinfo = info ∧ t.olen = 0)
  ∧ (v = none → t.phase = .done ∧ t.err = .none ∧ t.errinfo = 0)

/-- The block is busy before `n` steps and has stopped after them, with the outcome of a verdict. -/
def RunEnds (n : Nat) (v : Option (Err × Nat)) (s : State) : Prop :=
  (∀ k, k < n → ∃ t, runFor k s = .next t ∧ t.busy = true) ∧ ∃ t, runFor n s = .next t ∧ Reports v t

theorem RunEnds.of_reports {v : Option (Err × Nat)} {s : State} (h : Reports v s) : RunEnds 0 v s :=
  ⟨fun _ hk => absurd hk (Nat.not_lt_zero _), s, rfl, h⟩

theorem RunEnds.of_step {n : Nat} {v : Option (Err × Nat)} {s t : State} (hstep : step s = .next t)
    (hbusy : s.busy = true) (h : RunEnds n v t) : RunEnds (n + 1) v s := by
  have hrun (k : Nat) : runFor (k + 1) s = runFor k t := core_run_succ (M := core) k hstep
  obtain ⟨hbefore, hend⟩ := h
  rw [← hrun] at hend
  refine ⟨fun k hk => ?_, hend⟩
  cases k with
  | zero => exact ⟨s, rfl, hbusy⟩
  | succ k =>
    rw [hrun]
    exact hbefore k (Nat.lt_of_succ_lt_succ hk)

theorem runEnds_raiseError (e : Err) (info : Nat) (s : State) : RunEnds 0 (some (e, info)) (raiseError e info s) :=
  .of_reports ⟨fun _ _ h => by cases h; exact ⟨rfl, rfl, rfl, rfl⟩, nofun⟩

/-- A block inside the invariant that is left to itself. -/
structure Unattended (s : State) : Prop where
  inv : BlockInv s
  agenda : s.agenda = []

theorem busy_of_operation {s : State} {i : Instr} (hop : s.phase.operation = some i) : s.busy = true := by
  rw [busy_iff]
  refine ⟨?_, ?_, ?_⟩ <;> (intro hp; rw [hp] at hop; cases hop)

/-- The operation of PHASE completes, and it is one step more than the run takes from there. -/
theorem Unattended.operation {s : State} {p : Phase} {i : Instr} (h : Unattended s) (hp : s.phase = p)
    (hop : p.operation = some i) :
    ∃ t, exec i s = .next t ∧ Unattended t ∧ ∀ {n v}, RunEnds n v t → RunEnds (n + 1) v s := by
  subst hp
  have hblock := blockMoves_of_agenda_nil h.agenda
  obtain ⟨t, hexec⟩ := operation_completes h.inv hop
  have hstep : step s = .next t := by rw [step_of_operation hblock hop, popTurn_of_agenda_nil h.agenda, hexec]
  exact ⟨t, hexec, ⟨operation_keepsInv h.inv hop hexec, by rw [step_agenda hblock hstep, h.agenda, List.tail_nil]⟩,
    .of_step hstep (busy_of_operation hop)⟩

/-! ## The serializer -/

theorem Unattended.runEnds_done {s : State} (h : Unattended s) (hp : s.phase = .done) : RunEnds 0 none s := by
  have hphase := h.inv.phase
  rw [PhaseInv, hp] at hphase
  obtain ⟨⟨herr, herrinfo⟩, _⟩ := hphase
  exact .of_reports ⟨nofun, fun _ => ⟨hp, herr, herrinfo⟩⟩

theorem Unattended.runEnds_backfill {s : State} (h : Unattended s) (hp : s.phase = .backfill) : RunEnds 1 none s := by
  obtain ⟨t, hexec, hnext, hback⟩ := h.operation hp rfl
  exact hback (hnext.runEnds_done (execBackfill_phase hexec))

/-- One step for each sample that is left, one that ends them, and BACKFILL's (R319). -/
theorem Unattended.runEnds_wavdata {s : State} {n : Nat} (h : Unattended s) (hp : s.phase = .wavdata)
    (hn : s.sp + n = s.nsamp) : RunEnds (1 + 1 + n) none s := by
  induction n generalizing s with
  | zero =>
    obtain ⟨t, hexec, hnext, hback⟩ := h.operation hp rfl
    rcases execWavdata_cases hexec with ⟨_, rfl⟩ | ⟨hmore, _⟩
    · exact hback (hnext.runEnds_backfill rfl)
    · omega
  | succ n ih =>
    obtain ⟨t, hexec, hnext, hback⟩ := h.operation hp rfl
    rcases execWavdata_cases hexec with ⟨hend, _⟩ | ⟨_, _, _, _, _, rfl⟩
    · omega
    · have hn' : s.sp + 1 + n = s.nsamp := by omega
      exact hback (ih hnext hp hn')

/-- The steps from WAVHDR on: one if the file does not fit OMEM, else the header's and those of WAVDATA and BACKFILL
(R319). -/
def State.sinkSteps (s : State) : Nat :=
  if s.par.ocap < 44 + s.fileCodes * s.bps then 1 else 1 + 1 + s.fileCodes + 1

/-- The variant places the payload where the front end has set POFF. -/
theorem InStream.poff_eq {s : State} (h : InStream s) : s.poff = s.payloadStart := by
  obtain ⟨_, _, hmeta, _⟩ := h
  rw [State.payloadStart]
  rcases hmeta with ⟨hvar, _, _, _, hpoff⟩ | ⟨hvar, _, _, _, _, hpoff, _⟩ <;> rw [hvar, hpoff]

theorem InStream.codeCount_eq {s : State} (h : InStream s) : s.codeCount = s.fileCodes := by
  have hpoff := h.poff_eq
  obtain ⟨_, _, hmeta, _⟩ := h
  obtain ⟨_, _, _, _, hpayload⟩ := hmeta.ranges
  rw [State.codeCount, State.fileCodes]
  omega

theorem InStream.decodeComplete_iff {s : State} (h : InStream s) : DecodeComplete s ↔ s.cp = s.fileCodes := by
  rw [DecodeComplete, h.codeCount_eq, Int.ofNat_inj]

theorem Unattended.runEnds_wavhdr {s : State} (h : Unattended s) (hp : s.phase = .wavhdr) :
    RunEnds s.sinkSteps (capacityVerdict s) s := by
  have hphase := h.inv.phase
  rw [PhaseInv, hp] at hphase
  obtain ⟨hstream, hend, _⟩ := hphase
  have hcp := hstream.decodeComplete_iff.mp hend
  obtain ⟨_, _, _, ⟨hnsamp, _⟩, _⟩ := hstream
  rw [State.sinkSteps, capacityVerdict, ← hcp, ← hnsamp]
  obtain ⟨t, hexec, hnext, hback⟩ := h.operation hp rfl
  rcases execWavhdr_cases hexec with ⟨hfull, rfl⟩ | ⟨hroom, _, _, rfl⟩
  · rw [if_pos hfull, if_pos hfull]
    exact hback (runEnds_raiseError _ _ s)
  · rw [if_neg (Nat.not_lt.mpr hroom), if_neg (Nat.not_lt.mpr hroom)]
    exact hback (hnext.runEnds_wavdata rfl (Nat.zero_add _))

/-! ## The decoder -/

/-- One step for each code that is left, one that ends them, and the serializer's (R319). -/
theorem Unattended.runEnds_decode {s : State} {n : Nat} (h : Unattended s) (hp : s.phase = .decode)
    (hn : s.cp + n = s.fileCodes) : RunEnds (s.sinkSteps + 1 + n) (capacityVerdict s) s := by
  induction n generalizing s with
  | zero =>
    have hend := (h.inv.decode_inStream hp).decodeComplete_iff.mpr hn
    obtain ⟨t, hexec, hnext, hback⟩ := h.operation hp rfl
    rcases execDecode_cases hexec with ⟨_, rfl⟩ | ⟨hmore, _⟩
    · exact hback (hnext.runEnds_wavhdr rfl)
    · exact absurd hend hmore
  | succ n ih =>
    have hmore := (h.inv.decode_inStream hp).decodeComplete_iff.not.mpr (by omega)
    obtain ⟨t, hexec, hnext, hback⟩ := h.operation hp rfl
    rcases execDecode_cases hexec with ⟨hend, _⟩ | ⟨_, _, _, d, a, rfl⟩
    · exact absurd hend hmore
    · have hn' : s.cp + 1 + n = s.fileCodes := by omega
      exact hback (ih hnext hp hn')

/-- DECODE begins with the first code. -/
theorem Unattended.runEnds_streamStart {s : State} (h : Unattended s) (hp : s.phase = .decode) (hcp : s.cp = 0) :
    RunEnds (s.sinkSteps + 1 + s.fileCodes) (capacityVerdict s) s :=
  h.runEnds_decode hp (by rw [hcp, Nat.zero_add])

/-! ## The front end -/

theorem verdict_headerless {s : State} (hcfg : ConfigChecked s) (hvar : s.cfg.variant = .headerless) :
    verdict s = capacityVerdict s := by
  obtain ⟨hbps, hlen⟩ := hcfg.checks_pass
  rw [verdict, if_neg hbps, if_neg hlen, hvar]

theorem verdict_header {s : State} (hcfg : ConfigChecked s) (hvar : s.cfg.variant = .header) :
    verdict s = (headerVerdict s).or (capacityVerdict s) := by
  obtain ⟨hbps, hlen⟩ := hcfg.checks_pass
  rw [verdict, if_neg hbps, if_neg hlen, hvar]
  cases headerVerdict s <;> rfl

theorem runLength_of_capacityVerdict {s : State} (h : verdict s = capacityVerdict s) :
    runLength s = s.frontSteps + (s.sinkSteps + 1 + s.fileCodes) := by
  by_cases hfull : s.par.ocap < 44 + s.fileCodes * s.bps
  · rw [capacityVerdict, if_pos hfull] at h
    have hlen : runLength s = s.frontSteps + (s.fileCodes + 1) + 1 := by rw [runLength, h]; rfl
    rw [hlen, State.sinkSteps, if_pos hfull]
    omega
  · rw [capacityVerdict, if_neg hfull] at h
    rw [runLength_of_verdict_none h, State.sinkSteps, if_neg hfull]
    omega

/-- With `k` steps of its run behind it the block ends the run after the counted steps, with the verdict. -/
def OnCourse (k : Nat) (s : State) : Prop := ∃ n, runLength s = k + n ∧ RunEnds n (verdict s) s

theorem onCourse_of_raise {k : Nat} {s : State} {e : Err} {info : Nat}
    (hback : ∀ {n v}, RunEnds n v (raiseError e info s) → RunEnds (n + 1) v s) (hverdict : verdict s = some (e, info))
    (hlen : runLength s = k + 1) : OnCourse k s :=
  ⟨1, hlen, hverdict ▸ hback (runEnds_raiseError e info s)⟩

theorem Unattended.onCourse_hdrparse {s : State} (h : Unattended s) (hp : s.phase = .hdrparse)
    (hsig : s.imemBytes 0 4 = s.par.sigExpected.toList) : OnCourse 2 s := by
  have hphase := h.inv.phase
  rw [PhaseInv, hp] at hphase
  obtain ⟨_, ⟨_, _, hcp, _⟩, hcfg, hvar, h4⟩ := hphase
  have hverdict := verdict_header hcfg hvar
  rw [headerVerdict, if_neg (Nat.not_lt.mpr h4), if_neg (not_not_intro hsig)] at hverdict
  obtain ⟨t, hexec, hnext, hback⟩ := h.operation hp rfl
  -- A check that passes takes its branch off the verdict.
  rcases execHdrparse_cases hexec with ⟨hshort, rfl⟩ | ⟨h14, hprec, rfl⟩ | ⟨h14, hprec, hcheck, hover, rfl⟩ |
    ⟨h14, hprec, hsize, hrate, rfl⟩ | ⟨h14, hprec, hsize, hrate, rfl⟩
  · rw [if_pos hshort] at hverdict
    exact onCourse_of_raise hback hverdict (by rw [runLength, hverdict]; exact if_neg (Nat.not_lt.mpr h4))
  all_goals rw [if_neg (Nat.not_lt.mpr h14)] at hverdict
  · rw [if_pos hprec] at hverdict
    exact onCourse_of_raise hback hverdict (by rw [runLength, hverdict]; rfl)
  all_goals rw [if_neg (not_not_intro hprec)] at hverdict
  · rw [if_pos ⟨hcheck, hover⟩] at hverdict
    exact onCourse_of_raise hback hverdict (by rw [runLength, hverdict]; rfl)
  all_goals rw [if_neg hsize] at hverdict
  · rw [if_pos hrate] at hverdict
    exact onCourse_of_raise hback hverdict (by rw [runLength, hverdict]; rfl)
  · rw [if_neg (Nat.not_le.mpr hrate), Option.none_or] at hverdict
    refine ⟨s.sinkSteps + 1 + s.fileCodes + 1, ?_, hverdict ▸ hback (hnext.runEnds_streamStart rfl hcp)⟩
    have hfront : s.frontSteps = 3 := by rw [State.frontSteps, hvar]
    rw [runLength_of_capacityVerdict hverdict, hfront]
    omega

theorem Unattended.onCourse_sigchk {s : State} (h : Unattended s) (hp : s.phase = .sigchk) : OnCourse 1 s := by
  have hphase := h.inv.phase
  rw [PhaseInv, hp] at hphase
  obtain ⟨_, _, hcfg, hvar⟩ := hphase
  have hverdict := verdict_header hcfg hvar
  obtain ⟨t, hexec, hnext, hback⟩ := h.operation hp rfl
  rcases execSigchk_cases hexec with ⟨hshort, rfl⟩ | ⟨hlen, hsig, rfl⟩ | ⟨_, hsig, rfl⟩
  · rw [headerVerdict, if_pos hshort] at hverdict
    exact onCourse_of_raise hback hverdict (by rw [runLength, hverdict]; exact if_pos hshort)
  · rw [headerVerdict, if_neg (Nat.not_lt.mpr hlen), if_pos hsig] at hverdict
    exact onCourse_of_raise hback hverdict (by rw [runLength, hverdict]; rfl)
  · obtain ⟨n, hn, hrest⟩ := hnext.onCourse_hdrparse rfl hsig
    exact ⟨n + 1, hn.trans (by omega), hback hrest⟩

theorem Unattended.onCourse_cfgchk {s : State} (h : Unattended s) (hp : s.phase = .cfgchk) : OnCourse 0 s := by
  have hphase := h.inv.phase
  rw [PhaseInv, hp] at hphase
  obtain ⟨_, _, _, hcp, _⟩ := hphase
  obtain ⟨t, hexec, hnext, hback⟩ := h.operation hp rfl
  rcases execCfgchk_cases hexec with ⟨hbps, rfl⟩ | ⟨hlo, hhi, hlong, rfl⟩ | ⟨_, _, rfl⟩ | ⟨hcfg, hvar, rfl⟩
  · have hverdict : verdict s = some (.cfgBps, s.bps) := if_pos hbps
    exact onCourse_of_raise hback hverdict (by rw [runLength, hverdict])
  · have hbps : ¬ (s.bps = 0 ∨ Config.bMax < s.bps) := by omega
    have hverdict : verdict s = some (.cfgIlen, s.ilen) := (if_neg hbps).trans (if_pos hlong)
    exact onCourse_of_raise hback hverdict (by rw [runLength, hverdict])
  · obtain ⟨n, hn, hrest⟩ := hnext.onCourse_sigchk rfl
    exact ⟨n + 1, hn.trans (by omega), hback hrest⟩
  · have hverdict := verdict_headerless hcfg hvar
    refine ⟨s.sinkSteps + 1 + s.fileCodes + 1, ?_, hverdict ▸ hback (hnext.runEnds_streamStart rfl hcp)⟩
    have hfront : s.frontSteps = 1 := by rw [State.frontSteps, hvar]
    rw [runLength_of_capacityVerdict hverdict, hfront]
    omega

/-- START leaves what the checks read as it is. -/
theorem started_verdict (s : State) : verdict s.started = verdict s := rfl

theorem started_runLength (s : State) : runLength s.started = runLength s := rfl

/-- Settles O37: START puts the block at the beginning of its run, with the checks' verdict and the counted steps as the
host has set them. -/
theorem runEndsAsTheChecksSay : Obligations.RunEndsAsTheChecksSay := by
  intro s hinv hbusy hagenda
  have hstart : Unattended s.started :=
    ⟨hinv.popTurn.clearRun (.inr rfl), by rw [State.started, clearRun_agenda, popTurn_agenda, hagenda, List.tail_cons]⟩
  have hrun (k : Nat) : runFor (1 + k) s = runFor k s.started := runFor_one_add k (step_start hbusy hagenda)
  obtain ⟨n, hn, hend⟩ := hstart.onCourse_cfgchk rfl
  rw [started_verdict] at hend
  rw [started_runLength, Nat.zero_add] at hn
  simp only [hrun, hn]
  exact hend

end Sys2Proof.Machine
end

section
/-! PROOF. How the block goes to ERROR, and how it leaves it (60_exceptions.md R271 to R286). -/

namespace Sys2Proof.Machine

/-! ## The error entry (R271 to R273) -/

/-- The operation raises the error in this state, with this information word (R271, R272). -/
inductive Raises (s : State) : Instr → Err → Nat → Prop
  | cfgBps (h : s.bps = 0 ∨ 4 < s.bps) : Raises s .cfgchk .cfgBps s.bps
  | cfgIlen (h : s.par.icap < s.ilen) : Raises s .cfgchk .cfgIlen s.ilen
  | truncSignature (h : s.ilen < 4) : Raises s .sigchk .fmtTruncHeader s.ilen
  | signature (hlen : 4 ≤ s.ilen) (h : s.imemBytes 0 4 ≠ s.par.sigExpected.toList) :
      Raises s .sigchk .fmtSignature (leVal (s.imemBytes 0 4))
  | truncHeader (h : s.ilen < 14) : Raises s .hdrparse .fmtTruncHeader s.ilen
  | precision (h : leVal (s.imemBytes 12 2) ≠ 16) : Raises s .hdrparse .fmtPrecision (leVal (s.imemBytes 12 2))
  | truncPayload (hcheck : s.par.checkPaysize = true) (h : s.ilen - 14 < leVal (s.imemBytes 4 4)) :
      Raises s .hdrparse .fmtTruncPayload (s.ilen - 14)
  | range (h : 2 ^ 32 ≤ leVal (s.imemBytes 8 4) * s.bps) : Raises s .hdrparse .fmtRange (leVal (s.imemBytes 8 4))
  | ioFull (h : s.par.ocap < 44 + s.nsamp * s.bps) : Raises s .wavhdr .ioFull s.nsamp

/-- An instruction that goes to ERROR does it by the error entry, for a cause of its own. -/
theorem exec_raises {i : Instr} {s t : State} (hexec : exec i s = .next t) (hs : s.phase ≠ .error)
    (ht : t.phase = .error) : ∃ e info, Raises s i e info ∧ t = raiseError e info s := by
  rcases exec_cases hexec with ⟨_, d, j, rfl⟩ | ⟨_, h⟩ | ⟨_, h⟩ | ⟨rfl, h⟩ | ⟨rfl, h⟩ | ⟨rfl, h⟩ | ⟨_, h⟩ | ⟨rfl, h⟩ |
    ⟨_, h⟩ | ⟨_, h⟩
  · exact absurd ht hs
  · rcases execStart_cases h with ⟨_, rfl⟩ | ⟨_, rfl⟩
    · exact absurd ht hs
    · cases ht
  · rcases execClear_cases h with ⟨_, rfl⟩ | ⟨_, rfl⟩
    · exact absurd ht hs
    · cases ht
  · rcases execCfgchk_cases h with ⟨hbps, rfl⟩ | ⟨_, _, hlong, rfl⟩ | ⟨_, _, rfl⟩ | ⟨_, _, rfl⟩
    · exact ⟨_, _, .cfgBps hbps, rfl⟩
    · exact ⟨_, _, .cfgIlen hlong, rfl⟩
    · cases ht
    · cases ht
  · rcases execSigchk_cases h with ⟨hshort, rfl⟩ | ⟨hlen, hsig, rfl⟩ | ⟨_, _, rfl⟩
    · exact ⟨_, _, .truncSignature hshort, rfl⟩
    · exact ⟨_, _, .signature hlen hsig, rfl⟩
    · cases ht
  · rcases execHdrparse_cases h with ⟨hshort, rfl⟩ | ⟨_, hprec, rfl⟩ | ⟨_, _, hcheck, hover, rfl⟩ |
      ⟨_, _, _, hrate, rfl⟩ | ⟨_, _, _, _, rfl⟩
    · exact ⟨_, _, .truncHeader hshort, rfl⟩
    · exact ⟨_, _, .precision hprec, rfl⟩
    · exact ⟨_, _, .truncPayload hcheck hover, rfl⟩
    · exact ⟨_, _, .range hrate, rfl⟩
    · cases ht
  · rcases execDecode_cases h with ⟨_, rfl⟩ | ⟨_, _, _, d, a, rfl⟩
    · cases ht
    · exact absurd ht hs
  · rcases execWavhdr_cases h with ⟨hfull, rfl⟩ | ⟨_, _, _, rfl⟩
    · exact ⟨_, _, .ioFull hfull, rfl⟩
    · cases ht
  · rcases execWavdata_cases h with ⟨_, rfl⟩ | ⟨_, _, _, _, _, rfl⟩
    · cases ht
    · exact absurd ht hs
  · rw [execBackfill_phase h] at ht
    cases ht

theorem Raises.operation {s : State} {i : Instr} {e : Err} {info : Nat} (h : Raises s i e info) :
    i = .cfgchk ∨ i = .sigchk ∨ i = .hdrparse ∨ i = .wavhdr := by
  cases h <;> simp

theorem Raises.error {s : State} {i : Instr} {e : Err} {info : Nat} (h : Raises s i e info) : e ≠ .none := by
  cases h <;> nofun

/-- Settles O42: the error entry is the only way to ERROR, and the four operations that raise name an error. -/
theorem errorEntry : Obligations.ErrorEntry := by
  intro i s t hexec hs ht
  obtain ⟨e, info, hraises, rfl⟩ := exec_raises hexec hs ht
  exact ⟨hraises.operation, hraises.error, rfl⟩

/-- Settles O43: each cause of `Raises` with the number of its error. -/
theorem errorInformation : Obligations.ErrorInformation := by
  refine ⟨fun i s t hexec hs ht => ?causes, by decide⟩
  obtain ⟨e, info, hraises, rfl⟩ := exec_raises hexec hs ht
  cases hraises with
  | cfgBps h => simp [h]
  | cfgIlen h => simp [h]
  | truncSignature h => simp [h]
  | signature hlen h => simp [hlen, h]
  | truncHeader h => simp [h]
  | precision h => simp [h]
  | truncPayload hcheck h => simp [hcheck, h]
  | range h => simpa using h
  | ioFull h => simp [h]

/-! ## The phases without an operation (R286, R290; 70_reset_and_hazards.md R318) -/

theorem operation_of_not_busy {s : State} (h : s.busy = false) : s.phase.operation = none := by
  rcases (not_busy_iff s).mp h with hp | hp | hp <;> rw [hp] <;> rfl

/-- The outside changes PHASE by START, by CLEAR and by reset only. -/
theorem outside_changes_phase {s t : State} {a : Outside} {rest : List Turn} (hagenda : s.agenda = .outside a :: rest)
    (hstep : step s = .next t) (hchange : t.phase ≠ s.phase) :
    a = .writeReg 0 1#32 ∨ a = .writeReg 0 2#32 ∨ a = .reset := by
  have hread (h : (∃ n, a = .readReg n) ∨ (∃ i, a = .readWmem i) ∨ ∃ i, a = .readOmem i) : t.phase = s.phase := by
    rw [hostReadsChangeNothing s t a rest hagenda h hstep]
  cases a with
  | writeReg n v =>
    by_cases hn : n = 0
    · subst hn
      rcases decodeCommand_cases v with ⟨rfl, _⟩ | ⟨rfl, _⟩ | ⟨hstart, hclear, _⟩
      · exact .inl rfl
      · exact .inr (.inl rfl)
      · obtain ⟨_, hreserved⟩ := commandWriteRunsCommand s v rest hagenda
        rw [hreserved hstart hclear] at hstep
        cases hstep
        exact absurd rfl hchange
    · rw [step_writeReg hn hagenda] at hstep
      cases hstep
      refine absurd ?_ hchange
      rcases writeReg_cases n v s.popTurn with h | ⟨_, _, h⟩ | ⟨_, _, h⟩ <;> rw [h] <;> rfl
  | writeImem i b =>
    rw [step_writeImem hagenda] at hstep
    obtain ⟨_, _, rfl⟩ := writeImem_cases hstep
    exact absurd rfl hchange
  | readReg n => exact absurd (hread (.inl ⟨n, rfl⟩)) hchange
  | readWmem i => exact absurd (hread (.inr (.inl ⟨i, rfl⟩))) hchange
  | readOmem i => exact absurd (hread (.inr (.inr ⟨i, rfl⟩))) hchange
  | reset => exact .inr (.inr rfl)

/-- Settles O44: the block has no operation in its turn, and the outside has three ways to change PHASE. -/
theorem stoppedPhasesHold : Obligations.StoppedPhasesHold := by
  intro s t hbusy hstep
  have hpause (hblock : s.blockMoves = true) : t = s.popTurn := by
    rw [step_of_no_operation hblock (operation_of_not_busy hbusy)] at hstep
    cases hstep
    rfl
  refine ⟨hpause, fun hchange => ?_⟩
  rcases blockMoves_or s with hblock | ⟨a, rest, hagenda⟩
  · exact absurd (congrArg State.phase (hpause hblock)) hchange
  · rcases outside_changes_phase hagenda hstep hchange with rfl | rfl | rfl
    · exact ⟨rest, .inl hagenda⟩
    · exact ⟨rest, .inr (.inl hagenda)⟩
    · exact ⟨rest, .inr (.inr hagenda)⟩

end Sys2Proof.Machine
end

section
/-! PROOF. The reset event (70_reset_and_hazards.md R310). -/

namespace Sys2Proof.Machine

theorem step_reset {s : State} {rest : List Turn} (h : s.agenda = .outside .reset :: rest) :
    step s = .next (resetEvent s.popTurn) := by
  rw [step_outside s _ rest h]
  rfl

/-- Settles O52: `resetEvent` gives every register its reset value and lists no element of a memory; the parameters and the
turns still to come stay. -/
theorem resetEvent_spec : Obligations.ResetEvent := by
  intro s rest h
  have hturns : s.popTurn.agenda = rest := by rw [popTurn_agenda, h, List.tail_cons]
  exact ⟨resetEvent s.popTurn, step_reset h,
    rfl, rfl, rfl, rfl, rfl, rfl, rfl, rfl, rfl, rfl, rfl, rfl, rfl, rfl, rfl,
    Memory.look_nil, Memory.look_nil, Memory.look_nil, resetEvent_par _, hturns⟩

end Sys2Proof.Machine
end
